-- ==== Sys2Proof/Word.lean ====
section
/-! DEFINITION. The words of the block and of its environment. What the spec treats as bits is a bit vector
(rule R10: every value is unsigned, bit 0 is the least significant bit); what the spec leaves OPEN as a type
(92_eei_decisions.md D2, D3, D5) is a structure around an uninterpreted code, so that no proof can mix it with a number. -/

namespace Sys2Proof

/-- A palette-window offset: 16 bits (R9 OFFSET_BITS, R40). -/
abbrev Offset := BitVec 16

/-- A palette-device register index, 0 to 15 at the device's interface (R16). -/
abbrev RegIndex := BitVec 4

/-- One VRAM word (R8 VRAM_WORD_BITS). -/
abbrev VramWord := BitVec 16

/-- One 8-bit half of a VRAM word, which is also one colour index (R8 INDEX_BITS, R18, R25). -/
abbrev Byte := BitVec 8

/-- A palette register's data value. DESIGN CHOICE: the spec leaves the type PalData OPEN (R9, D3); it is held as an
uninterpreted code (log entry 2). -/
structure PalData where
  code : Nat
  deriving DecidableEq, Repr, Inhabited

/-- One true-colour pixel. DESIGN CHOICE: the spec leaves the type Color OPEN (R9, D5); it is held as an uninterpreted
code (log entry 2). -/
structure Color where
  code : Nat
  deriving DecidableEq, Repr, Inhabited

/-- The palette device's state P (R19). DESIGN CHOICE: opaque to the block (R22); it is held as an uninterpreted code
(log entry 2). -/
structure PalState where
  code : Nat
  deriving DecidableEq, Repr, Inhabited

end Sys2Proof
end

