-- ==== Sys2Proof/Config.lean ====
section
/-! DEFINITION. What an implementation fixes (rule R9): the open parameters of the block, and the palette device, an
injected capability (R19). The parameters that are numbers are plain data and stand in State (log entry 1), so that a
statement about every state holds for every value of them; the device is a constant without a body. -/

namespace Sys2Proof

/-- RASTER_GRANULARITY (R9, R66): `line` performs a RASTER_LINE in one atomic step, `pair` in one step per VRAM word. -/
inductive Granularity where
  | line
  | pair
  deriving DecidableEq, Repr

/-- The open parameters of the model that are plain data (R9). -/
structure Config where
  /-- VRAM_WORDS, the backed VRAM extent in words (D4). -/
  vramWords : Nat
  /-- LINE_WIDTH, the length in pixels of one output line buffer (D7). -/
  lineWidth : Nat
  /-- SCREEN_LINES, the number of output line buffers (D7). -/
  screenLines : Nat
  /-- RASTER_GRANULARITY (D8). -/
  granularity : Granularity
  deriving DecidableEq, Repr

/-- The parameters of the state after reset: the spec's defaults for VRAM_WORDS and RASTER_GRANULARITY (R9). DESIGN
CHOICE for LINE_WIDTH and SCREEN_LINES, which the spec leaves OPEN: the values of its test vectors (95_test_vectors.md),
log entry 1; unsafe for a claim about the reset state alone. -/
def Config.reference : Config :=
  { vramWords := 0x40000, lineWidth := 16, screenLines := 4, granularity := .line }

/-- The palette device as an injected capability (R19): a register read may change the device's state, a register write
changes it as the device defines, and the colour table is a function of it (R18). -/
structure PaletteDevice where
  palRead : PalState → RegIndex → PalData × PalState
  palWrite : PalState → RegIndex → PalData → PalState
  palPens : PalState → Byte → Color
  deriving Inhabited

/-- The device of the machine. A FREE VALUE (R19, D2, U1, U4; log entry 2): it has no body, so nothing can be proved
about what it answers. -/
opaque Config.palette : PaletteDevice

end Sys2Proof
end

