-- ==== Sys2Proof/Machine/Operands.lean ====
section
/-! DEFINITION. The operand forms: the fixed constants (rule R8), the palette-window offset (R40 to R42) with the register
address decoder (R47), the rasterizer's operand assembly (R43, R54 to R57) and the byte enables (R70). -/

namespace Sys2Proof.Machine

/-! ### Constants (R8) -/

def palShift : Nat := 12
def palNcBit : Nat := 2
def palSwapBit : Nat := 3
def rowShift : Nat := 8
def rowMask : Nat := 0x3FF00
def colMask : Nat := 0xFF

/-! ### The palette-window offset (R40) -/

/-- o[12], register index bit 0 (R40). -/
def Offset.rs0 (o : Offset) : BitVec 1 := o.extractLsb' 12 1

/-- o[13], register index bit 1 (R40). -/
def Offset.rs1 (o : Offset) : BitVec 1 := o.extractLsb' 13 1

/-- o[15], the cross-wired line, register index bit 2 (R40). -/
def Offset.rs2 (o : Offset) : BitVec 1 := o.extractLsb' 15 1

/-- The register address decoder (R47): shift, drop the unconnected line, move the cross-wired line. -/
def translateOffset (o : Offset) : RegIndex :=
  let shifted : RegIndex := (o >>> palShift).setWidth 4
  let n := shifted &&& ~~~(1#4 <<< palNcBit)
  if n.getLsbD palSwapBit then (n &&& ~~~(1#4 <<< palSwapBit)) ||| (1#4 <<< 2) else n

/-- The closed form of the decoder (R42): zext_4(o[15] : o[13] : o[12]). -/
def translateClosedForm (o : Offset) : RegIndex :=
  (Offset.rs2 o ++ Offset.rs1 o ++ Offset.rs0 o).setWidth 4

/-- The canonical offset of a register index 0 to 7 (R42). -/
def canon (r : BitVec 3) : Offset :=
  ((r.extractLsb' 2 1).setWidth 16 <<< 15) ||| ((r.extractLsb' 1 1).setWidth 16 <<< 13)
    ||| ((r.extractLsb' 0 1).setWidth 16 <<< 12)

/-! ### The rasterizer's operands (R43) -/

/-- The row base (R54). -/
def rowBase (rowaddr : Nat) : Nat :=
  (rowaddr <<< rowShift) &&& rowMask

/-- The column a cursor selects (R55). -/
def column (cursor : Nat) : Nat :=
  cursor &&& colMask

/-- The VRAM word index of a pair step (R43, R57). -/
def wordIndex (base cursor : Nat) : Nat :=
  base + column cursor

/-- The colour index of a pair's first pixel: the low byte (R25). -/
def penFirst (w : VramWord) : Byte := w.extractLsb' 0 8

/-- The colour index of a pair's second pixel: the high byte (R25). -/
def penSecond (w : VramWord) : Byte := w.extractLsb' 8 8

/-- The number of pair steps of a RASTER_LINE (R56). -/
def pairCount (heblnk hsblnk : Nat) : Nat :=
  if heblnk < hsblnk then (hsblnk - heblnk + 1) / 2 else 0

/-! ### Byte enables (R70) -/

/-- The bits of a word that the byte enables select (R70). -/
def byteMask (be : BitVec 2) : VramWord :=
  (if be.getLsbD 1 then 0xFF00#16 else 0#16) ||| (if be.getLsbD 0 then 0x00FF#16 else 0#16)

/-- The word a byte-enabled write leaves (R70). -/
def mergeWord (old value : VramWord) (be : BitVec 2) : VramWord :=
  (old &&& ~~~(byteMask be)) ||| (value &&& byteMask be)

end Sys2Proof.Machine
end

