-- ==== Sys2Proof/Syntax.lean ====
section
/-! DEFINITION. The operations of the block (rules R38, R39), one constructor per row of spec/opcode_table.json; the
operation record they are read from (R38); and the assembler's lines (R46). -/

namespace Sys2Proof

/-- The block's operations (R39), each with the fields R38 lists for its kind. -/
inductive Instr where
  /-- A palette register read through the palette window (R48). -/
  | palRd (offset : Offset)
  /-- A palette register write through the palette window (R49). -/
  | palWr (offset : Offset) (data : PalData)
  /-- Rasterize one scanline (R53). The operands are unbounded naturals (R17, D6). -/
  | rasterLine (scanline rowaddr coladdr heblnk hsblnk : Nat)
  /-- The interrupt acknowledgment sink (R68). -/
  | irqAck (level : BitVec 1)
  /-- The driver's VRAM read (R69). -/
  | vramRd (index : Nat)
  /-- The driver's VRAM write (R70); `be` bit 0 enables bits 7..0 of the word and bit 1 bits 15..8. -/
  | vramWr (index : Nat) (value : VramWord) (be : BitVec 2)
  deriving DecidableEq, Repr

/-- The raster parameters, the operands of one RASTER_LINE (R17). -/
structure RasterParams where
  scanline : Nat
  rowaddr : Nat
  coladdr : Nat
  heblnk : Nat
  hsblnk : Nat
  deriving DecidableEq, Repr

/-- The six kinds of operation that have a kind code (R39). -/
inductive Kind where
  | palRd
  | palWr
  | rasterLine
  | irqAck
  | vramRd
  | vramWr
  deriving DecidableEq, Repr

/-- The names of an operation record's fields beside its kind (R38). -/
inductive Field where
  | offset
  | data
  | scanline
  | rowaddr
  | coladdr
  | heblnk
  | hsblnk
  | level
  | index
  | value
  | be
  deriving DecidableEq, Repr

/-- Every field name, in the order of R38's table. -/
def Field.all : List Field :=
  [.offset, .data, .scanline, .rowaddr, .coladdr, .heblnk, .hsblnk, .level, .index, .value, .be]

/-- The operation record (R38). It has no fixed bit length; a field of another kind is absent, not zero. -/
structure OpRecord where
  kind : BitVec 3
  offset : Option Offset := none
  data : Option PalData := none
  scanline : Option Nat := none
  rowaddr : Option Nat := none
  coladdr : Option Nat := none
  heblnk : Option Nat := none
  hsblnk : Option Nat := none
  level : Option (BitVec 1) := none
  index : Option Nat := none
  value : Option VramWord := none
  be : Option (BitVec 2) := none
  deriving DecidableEq, Repr

/-- Whether the record holds the field. -/
def OpRecord.has (r : OpRecord) : Field → Bool
  | .offset => r.offset.isSome
  | .data => r.data.isSome
  | .scanline => r.scanline.isSome
  | .rowaddr => r.rowaddr.isSome
  | .coladdr => r.coladdr.isSome
  | .heblnk => r.heblnk.isSome
  | .hsblnk => r.hsblnk.isSome
  | .level => r.level.isSome
  | .index => r.index.isSome
  | .value => r.value.isSome
  | .be => r.be.isSome

/-- One line of the assembler's text (R46): the operations, with `be` optional for `vram.wr`, and the four
pseudo-instructions. The operands are numbers as written; their ranges are checked when the line is expanded. -/
inductive AsmLine where
  | palRd (offset : Nat)
  | palWr (offset data : Nat)
  | raster (line row col he hs : Nat)
  | irqAck (level : Nat)
  | vramRd (index : Nat)
  | vramWr (index value : Nat) (be : Option Nat)
  | palRdr (r : Nat)
  | palWrr (r data : Nat)
  | vramWrl (index b : Nat)
  | vramWrh (index b : Nat)
  deriving DecidableEq, Repr

end Sys2Proof
end

