-- ==== Sys2Proof/WellFormed.lean ====
section
/-! DEFINITION. Well-formedness. Of an operation record (rules R38, R39, R44, R45): its kind is not reserved and it
holds the fields of its kind and no other. Of an operation against the configuration: the driver's duties (R83, with
the invariant of R17), which no operation checks and which a claim takes as a premise; duties 1 and 2 of R83 are about which
colours and pixels are intended, which no state says, and no fault depends on them. -/

namespace Sys2Proof

/-- The kind a kind code names (R39); the codes 0b110 and 0b111 are reserved (R44). -/
def Kind.ofCode (c : BitVec 3) : Option Kind :=
  match c.toNat with
  | 0 => some .palRd
  | 1 => some .palWr
  | 2 => some .rasterLine
  | 3 => some .irqAck
  | 4 => some .vramRd
  | 5 => some .vramWr
  | _ => none

/-- The fields of each kind (R38). -/
def Kind.fields : Kind → List Field
  | .palRd => [.offset]
  | .palWr => [.offset, .data]
  | .rasterLine => [.scanline, .rowaddr, .coladdr, .heblnk, .hsblnk]
  | .irqAck => [.level]
  | .vramRd => [.index]
  | .vramWr => [.index, .value, .be]

/-- The record holds every field of the kind (R38). -/
def OpRecord.complete (r : OpRecord) (k : Kind) : Bool :=
  k.fields.all r.has

/-- The record holds no field of another kind (R38: such a field is absent). -/
def OpRecord.noForeign (r : OpRecord) (k : Kind) : Bool :=
  Field.all.all fun f => k.fields.contains f || !r.has f

/-- A well-formed operation record (R38, R44, R45). -/
def OpRecord.wellFormed (r : OpRecord) : Bool :=
  match Kind.ofCode r.kind with
  | none => false
  | some k => r.complete k && r.noForeign k

/-- Duty 5 of R83, and the width R38 gives `scanline`. -/
def Config.scanlineExists (cfg : Config) (p : RasterParams) : Bool :=
  p.scanline < cfg.screenLines

/-- Duty 3 of R83, first half (the invariant of R17): heblnk <= hsblnk. -/
def RasterParams.spanOrdered (p : RasterParams) : Bool :=
  p.heblnk ≤ p.hsblnk

/-- Duty 3 of R83, second half (the invariant of R17): the active span is even. -/
def RasterParams.spanEven (p : RasterParams) : Bool :=
  (p.hsblnk - p.heblnk) % 2 = 0

/-- Duty 4 of R83: hsblnk <= LINE_WIDTH. -/
def Config.spanFits (cfg : Config) (p : RasterParams) : Bool :=
  p.hsblnk ≤ cfg.lineWidth

/-- Duty 6 of R83: rowaddr addresses a row (the rows are 0 to 1023, R54). -/
def RasterParams.rowInRange (p : RasterParams) : Bool :=
  p.rowaddr < 1024

/-- The duty behind VramOutOfRange (R72): a word index within the backed extent. -/
def Config.indexBacked (cfg : Config) (index : Nat) : Bool :=
  index < cfg.vramWords

/-- Duty 7 of R83, its first form: the backed extent covers the rasterizer's reach. -/
def Config.coversReach (cfg : Config) : Bool :=
  0x40000 ≤ cfg.vramWords

/-- Duty 7 of R83, its second form: what the RASTER_LINE reads of its row lies within VRAM_WORDS, every word of its pairs
(R43, R55; log entry 19). -/
def Config.wordsReadBacked (cfg : Config) (p : RasterParams) : Bool :=
  (List.range (Machine.pairCount p.heblnk p.hsblnk)).all fun k =>
    cfg.indexBacked (Machine.wordIndex (Machine.rowBase p.rowaddr) (p.coladdr + k))

/-- The duties of a driver about one RASTER_LINE (R83, duties 3 to 7). -/
def Config.rasterDuties (cfg : Config) (p : RasterParams) : Bool :=
  cfg.scanlineExists p && p.spanOrdered && p.spanEven && cfg.spanFits p && p.rowInRange
    && (cfg.coversReach || cfg.wordsReadBacked p)

/-- The duties of a driver about one operation (R83 and R72's last column). The palette window has none (R52). -/
def Config.dutiesMet (cfg : Config) : Instr → Bool
  | .palRd _ => true
  | .palWr _ _ => true
  | .rasterLine scanline rowaddr coladdr heblnk hsblnk =>
    cfg.rasterDuties
      { scanline := scanline, rowaddr := rowaddr, coladdr := coladdr, heblnk := heblnk, hsblnk := hsblnk }
  | .irqAck _ => true
  | .vramRd index => cfg.indexBacked index
  | .vramWr index _ _ => cfg.indexBacked index

end Sys2Proof
end

