-- ==== Sys2Proof/Decode.lean ====
section
/-! DEFINITION. From operation records to operations and back (rules R38, R39, R44, R45). Decoding is total on every
record and rejects by name. The encoder is written from the same tables. -/

namespace Sys2Proof

/-- Why a record is no operation. `reservedKind` is the spec's own rejection (R44); the other two are records that R38
does not allow (log entry 12). -/
inductive DecodeError where
  | reservedKind (kind : BitVec 3)
  | missingField (f : Field)
  | foreignField (f : Field)
  deriving DecidableEq, Repr

/-- The byte enables of a VRAM_WR record that does not name them: 0b11 (opcode_table.json, R46, R10; log entry 12). -/
def OpRecord.withDefaults (r : OpRecord) : OpRecord :=
  match Kind.ofCode r.kind with
  | some .vramWr => { r with be := some (r.be.getD 3#2) }
  | _ => r

/-- A field the kind requires (R38). -/
def need {α : Type} (f : Field) : Option α → Except DecodeError α
  | some v => .ok v
  | none => .error (.missingField f)

/-- The operation of a kind, from the kind's fields in the order of R38. -/
def decodeFields (r : OpRecord) : Kind → Except DecodeError Instr
  | .palRd => do
    let offset ← need .offset r.offset
    return .palRd offset
  | .palWr => do
    let offset ← need .offset r.offset
    let data ← need .data r.data
    return .palWr offset data
  | .rasterLine => do
    let scanline ← need .scanline r.scanline
    let rowaddr ← need .rowaddr r.rowaddr
    let coladdr ← need .coladdr r.coladdr
    let heblnk ← need .heblnk r.heblnk
    let hsblnk ← need .hsblnk r.hsblnk
    return .rasterLine scanline rowaddr coladdr heblnk hsblnk
  | .irqAck => do
    let level ← need .level r.level
    return .irqAck level
  | .vramRd => do
    let index ← need .index r.index
    return .vramRd index
  | .vramWr => do
    let index ← need .index r.index
    let value ← need .value r.value
    let be ← need .be r.be
    return .vramWr index value be

/-- The first field the record holds that its kind does not have (R38). -/
def firstForeign (r : OpRecord) (k : Kind) : Option Field :=
  Field.all.find? fun f => r.has f && !k.fields.contains f

/-- Decode one operation record (R38, R39). The kind is checked first (R74). -/
def decode (r : OpRecord) : Except DecodeError Instr :=
  match Kind.ofCode r.kind with
  | none => .error (.reservedKind r.kind)
  | some k =>
    match firstForeign r k with
    | some f => .error (.foreignField f)
    | none => decodeFields r.withDefaults k

/-- The kind code of each operation (R39). -/
def kindCode : Instr → BitVec 3
  | .palRd _ => 0b000#3
  | .palWr _ _ => 0b001#3
  | .rasterLine _ _ _ _ _ => 0b010#3
  | .irqAck _ => 0b011#3
  | .vramRd _ => 0b100#3
  | .vramWr _ _ _ => 0b101#3

/-- Encode an operation as its record (R38, R39). -/
def encode (i : Instr) : OpRecord :=
  match i with
  | .palRd offset => { kind := kindCode i, offset := some offset }
  | .palWr offset data => { kind := kindCode i, offset := some offset, data := some data }
  | .rasterLine scanline rowaddr coladdr heblnk hsblnk =>
    { kind := kindCode i, scanline := some scanline, rowaddr := some rowaddr, coladdr := some coladdr,
      heblnk := some heblnk, hsblnk := some hsblnk }
  | .irqAck level => { kind := kindCode i, level := some level }
  | .vramRd index => { kind := kindCode i, index := some index }
  | .vramWr index value be => { kind := kindCode i, index := some index, value := some value, be := some be }

/-- The record of a kind code whose operand fields are all zero. -/
def zeroRecord (c : BitVec 3) : OpRecord :=
  match Kind.ofCode c with
  | none => { kind := c }
  | some .palRd => { kind := c, offset := some 0 }
  | some .palWr => { kind := c, offset := some 0, data := some ⟨0⟩ }
  | some .rasterLine =>
    { kind := c, scanline := some 0, rowaddr := some 0, coladdr := some 0, heblnk := some 0, hsblnk := some 0 }
  | some .irqAck => { kind := c, level := some 0 }
  | some .vramRd => { kind := c, index := some 0 }
  | some .vramWr => { kind := c, index := some 0, value := some 0, be := some 0 }

/-- The record an opcode-table word stands for (log entry 13): the table gives a record only its kind, bits 2..0, and no
bit position to any operand (R38 gives none), so every operand field is zero. -/
def recordOfTableWord (nbits w : Nat) : OpRecord :=
  zeroRecord (BitVec.ofNat 3 (w % 2 ^ nbits))

/-- The operation the decoder reads from an opcode-table word; none where it refuses. -/
def decodeTableWord (nbits w : Nat) : Option Instr :=
  match decode (recordOfTableWord nbits w) with
  | .ok i => some i
  | .error _ => none

end Sys2Proof
end

