-- ==== Sys2Proof/Machine/State.lean ====
section
/-! DEFINITION. The machine's state (rules R12, R21, R23) as plain data, its fault reasons (R72), its refusals, and the
state at launch and after reset (R24, R81). -/

namespace Sys2Proof.Machine

/-- VRAM (R12, R20). A cell's key is 2 * word index + lane: lane 0 holds bits 7..0 of the word and lane 1 bits 15..8
(R25, R26); the key is this list's own and no access forms it as an address (log entry 5). Canonical form: keys strictly
rising, no cell equal to what an unlisted lane reads as. -/
abbrev Memory := List Host.Cell

/-- The pixels of one output line the block has written (R12), keyed by x, keys strictly rising. -/
abbrev Line := List (Nat × Color)

/-- The output line buffers (R12), keyed by scanline, keys strictly rising; a line with no written pixel is not listed.
A pixel not listed is `none`, not written by the block. -/
abbrev Frame := List (Nat × Line)

/-- The history of operations performed (R23, D18). The value an operation returns to the driver (R48, R69) stands in
its event. -/
inductive Event where
  | palRead (offset : Offset) (r : RegIndex) (d : PalData)
  | palWrite (offset : Offset) (r : RegIndex) (d : PalData)
  | rasterLine (p : RasterParams)
  | irqAck (level : BitVec 1)
  | vramRead (index : Nat) (w : VramWord)
  | vramWrite (index : Nat) (value : VramWord) (be : BitVec 2)
  deriving DecidableEq, Repr

/-- The fault reasons (R72), with their recorded values. An operation that raises one leaves it in the state's `fault`
(R73); every later step then answers it. Safe: the machine stops where the spec gives no behaviour. -/
inductive Fault where
  /-- Raised by RASTER_LINE's pair step, VRAM_RD and VRAM_WR when the word index is not below VRAM_WORDS. Safe. -/
  | vramOutOfRange (index : Nat)
  /-- Raised by RASTER_LINE's pair step when a pixel position is not below LINE_WIDTH. Safe. -/
  | lineBufferOverflow (scanline x : Nat)
  /-- Raised by RASTER_LINE when the scanline is not below SCREEN_LINES. Safe. -/
  | scanlineOutOfRange (scanline : Nat)
  /-- Raised by decoding a record whose kind code is reserved (R44). Safe. -/
  | reservedKind (kind : BitVec 3)
  deriving DecidableEq, Repr

/-- Why a step has no next state. None of them is an operation's own effect. -/
inductive Refusal where
  /-- Raised by exec's arm of an operation that has no meaning yet. Safe. -/
  | notModelled (mnemonic : String)
  /-- Raised by a step when the driver issues no further operation and no RASTER_LINE is partly done (R81). Safe. -/
  | endOfRun
  /-- Raised by a step whose driver move advances a RASTER_LINE when none is partly done (R66). Safe. -/
  | nothingToAdvance
  /-- Raised by RASTER_LINE when another RASTER_LINE is partly done, which R66 does not let the driver issue. Safe. -/
  | lineInProgress
  /-- Raised by a step whose record lacks a field of its kind (R38). Safe. -/
  | missingField (f : Field)
  /-- Raised by a step whose record holds a field of another kind (R38). Safe. -/
  | foreignField (f : Field)
  deriving DecidableEq, Repr

/-- A RASTER_LINE that is partly done (R21, R66): its parameters, the row base its first step computed, the running
column cursor and the output x coordinate. -/
structure LineProgress where
  params : RasterParams
  base : Nat
  cursor : Nat
  x : Nat
  deriving DecidableEq, Repr

/-- One move of the driver (R6): it issues an operation, or, between the steps of a RASTER_LINE under RASTER_GRANULARITY
`pair`, lets the line take its next step (R66). -/
inductive DriverMove where
  | issue (r : OpRecord)
  | advance
  deriving DecidableEq, Repr

/-- The machine's state (R12, R21), with the configuration (R9) and what the driver has yet to do (R6). -/
structure State where
  /-- The open parameters (R9); no step changes them. -/
  cfg : Config
  /-- Video memory (R12). -/
  vram : Memory
  /-- The palette device's state (R12, R19). -/
  pal : PalState
  /-- The output line buffers (R12). -/
  frame : Frame
  /-- The RASTER_LINE partly done; always none under granularity `line` (R21, R66). -/
  line : Option LineProgress
  /-- The driver's moves to come, oldest first (R6, R33; log entry 6). -/
  schedule : List DriverMove
  /-- The history, in performance order (R23, D18). -/
  events : List Event
  /-- Set once, never cleared (R12, R73). -/
  fault : Option Fault
  deriving DecidableEq, Repr

/-- The launch state (R24, R81) of a configuration, from the launch arguments vram0 and pal0, before the driver has
anything to issue. -/
def State.launch (cfg : Config) (vram0 : Memory) (pal0 : PalState) : State :=
  { cfg := cfg, vram := vram0, pal := pal0, frame := [], line := none, schedule := [], events := [], fault := none }

/-- The state after reset: the launch state of the reference configuration. DESIGN CHOICE for the launch arguments, of
which the spec gives no value (R24, D13): VRAM with nothing listed (log entry 4) and the device's state code 0 (log
entry 3). Unsafe for a claim about this one state: state it of State.launch. -/
def State.reset : State :=
  State.launch Config.reference [] ⟨0⟩

end Sys2Proof.Machine
end

