-- ==== Sys2Proof/Machine/Ops.lean ====
section
/-! DEFINITION. The named operations over memory, the output lines and the state: the primitives of rule R10, and raising a
fault (R73). -/

namespace Sys2Proof.Machine

/-! ### Sparse lists keyed by naturals -/

/-- The value stored under a key. -/
def Cells.find {α : Type} (k : Nat) : List (Nat × α) → Option α
  | [] => none
  | (j, v) :: rest => if j = k then some v else Cells.find k rest

/-- Store a value under a key, keeping the keys rising. -/
def Cells.insert {α : Type} (k : Nat) (v : α) : List (Nat × α) → List (Nat × α)
  | [] => [(k, v)]
  | (j, u) :: rest =>
    if k < j then (k, v) :: (j, u) :: rest
    else if j = k then (k, v) :: rest
    else (j, u) :: Cells.insert k v rest

/-- Remove what is stored under a key. -/
def Cells.erase {α : Type} (k : Nat) : List (Nat × α) → List (Nat × α)
  | [] => []
  | (j, u) :: rest => if j = k then Cells.erase k rest else (j, u) :: Cells.erase k rest

/-- The keys strictly rise. -/
abbrev Cells.rising {α : Type} (l : List (Nat × α)) : Prop :=
  l.Pairwise fun a b => a.1 < b.1

/-! ### VRAM -/

/-- What an unlisted lane reads as. DESIGN CHOICE (log entry 4): the spec gives VRAM no contents at launch (R24). -/
def Memory.unlisted : Byte := 0#8

/-- The canonical form of VRAM. -/
abbrev Memory.wf (m : Memory) : Prop :=
  Cells.rising m ∧ ∀ c ∈ m, c.2 ≠ Memory.unlisted

/-- Every listed lane belongs to a word below the extent. -/
abbrev Memory.within (words : Nat) (m : Memory) : Prop :=
  ∀ c ∈ m, c.1 < 2 * words

/-- The key of a lane of a word: lane 0 is bits 7..0 (be[0]), lane 1 is bits 15..8 (be[1]) (R26). -/
def laneKey (index lane : Nat) : Nat :=
  2 * index + lane

/-- Read one byte lane. -/
def Memory.readLane (m : Memory) (k : Nat) : Byte :=
  (Cells.find k m).getD Memory.unlisted

/-- Write one byte lane, keeping the canonical form. -/
def Memory.writeLane (m : Memory) (k : Nat) (b : Byte) : Memory :=
  if b = Memory.unlisted then Cells.erase k m else Cells.insert k b m

/-- MemRead(i, 2): the whole 16-bit word at a word index (R10, R25). -/
def Memory.readWord (m : Memory) (index : Nat) : VramWord :=
  Memory.readLane m (laneKey index 1) ++ Memory.readLane m (laneKey index 0)

/-- Store the whole 16-bit word at a word index. -/
def Memory.writeWord (m : Memory) (index : Nat) (w : VramWord) : Memory :=
  Memory.writeLane (Memory.writeLane m (laneKey index 0) (w.extractLsb' 0 8)) (laneKey index 1) (w.extractLsb' 8 8)

/-! ### The output line buffers -/

/-- The written pixels of an output line. -/
def Frame.line (f : Frame) (scanline : Nat) : Line :=
  (Cells.find scanline f).getD []

/-- The pixel x of an output line; none where the block has not written (R12). -/
def Frame.read (f : Frame) (scanline x : Nat) : Option Color :=
  Cells.find x (Frame.line f scanline)

/-- LineWrite(s, x, c) (R10). -/
def Frame.write (f : Frame) (scanline x : Nat) (c : Color) : Frame :=
  Cells.insert scanline (Cells.insert x c (Frame.line f scanline)) f

/-- The canonical form of the output line buffers. -/
abbrev Frame.wf (f : Frame) : Prop :=
  Cells.rising f ∧ ∀ l ∈ f, Cells.rising l.2 ∧ l.2 ≠ []

/-- Every listed pixel lies in a buffer of the configuration (R20). -/
abbrev Frame.within (cfg : Config) (f : Frame) : Prop :=
  ∀ l ∈ f, l.1 < cfg.screenLines ∧ ∀ p ∈ l.2, p.1 < cfg.lineWidth

/-! ### Updates of the state, one field each -/

def State.setVram (s : State) (m : Memory) : State := { s with vram := m }

def State.setPal (s : State) (p : PalState) : State := { s with pal := p }

def State.setFrame (s : State) (f : Frame) : State := { s with frame := f }

def State.setLine (s : State) (l : Option LineProgress) : State := { s with line := l }

def State.setSchedule (s : State) (q : List DriverMove) : State := { s with schedule := q }

/-- emit E: append an event to the history (R10, D18). -/
def State.emit (s : State) (e : Event) : State := { s with events := s.events ++ [e] }

/-- raise Fault(reason): the reason is recorded and nothing else changes (R10, R73). -/
def State.raise (s : State) (f : Fault) : State := { s with fault := some f }

/-- No operation is performed once a fault is recorded (R73): the machine stops with that fault. -/
def whenRunning (s : State) (k : Host.Outcome State Fault Refusal) : Host.Outcome State Fault Refusal :=
  match s.fault with
  | some f => .fault f
  | none => k

/-- What an operation returned to the driver (R48, R69). -/
inductive Returned where
  | palData (d : PalData)
  | vramWord (w : VramWord)
  deriving DecidableEq, Repr

/-- The value the operation behind an event returned to the driver: only PAL_RD and VRAM_RD return one (R15). -/
def Event.returned : Event → Option Returned
  | .palRead _ _ d => some (.palData d)
  | .palWrite _ _ _ => none
  | .rasterLine _ => none
  | .irqAck _ => none
  | .vramRead _ w => some (.vramWord w)
  | .vramWrite _ _ _ => none

/-- The value the last operation performed returned to the driver. -/
def State.lastReturned (s : State) : Option Returned :=
  s.events.getLast?.bind Event.returned

end Sys2Proof.Machine
end

