-- ==== Sys2Proof/Machine/Flags.lean ====
section
/-! DEFINITION. Flags: the block has none. Rule R15: no operation sets or reads a flag, a condition code or a predicate, so
there is no flag computation to define and this file declares nothing. -/
end

