-- ==== Sys2Proof/Machine/Palette.lean ====
section
/-! DEFINITION. The palette window: PAL_RD (rule R48) and PAL_WR (R49), which forward through the register address decoder
(R47) to the palette device. Each is written for any device (R19); the instruction's meaning is that of the machine's own. -/

namespace Sys2Proof.Machine

/-- PAL_RD forwarded to a device (R48): the value read, and whatever state the read leaves the device in (R19, R86). -/
def palReadOn (dev : PaletteDevice) (offset : Offset) (s : State) : State :=
  let r := translateOffset offset
  let answer := dev.palRead s.pal r
  (s.setPal answer.2).emit (.palRead offset r answer.1)

/-- PAL_WR forwarded to a device (R49): the data unchanged, on the same decoder as the read path (R50). -/
def palWriteOn (dev : PaletteDevice) (offset : Offset) (data : PalData) (s : State) : State :=
  let r := translateOffset offset
  (s.setPal (dev.palWrite s.pal r data)).emit (.palWrite offset r data)

/-- PAL_RD on a device (R48). -/
def execPalRdOn (dev : PaletteDevice) (offset : Offset) (s : State) : Host.Outcome State Fault Refusal :=
  whenRunning s (.next (palReadOn dev offset s))

/-- PAL_WR on a device (R49). -/
def execPalWrOn (dev : PaletteDevice) (offset : Offset) (data : PalData) (s : State) :
    Host.Outcome State Fault Refusal :=
  whenRunning s (.next (palWriteOn dev offset data s))

/-- PAL_RD (R48). -/
def execPalRd (offset : Offset) (s : State) : Host.Outcome State Fault Refusal :=
  execPalRdOn Config.palette offset s

/-- PAL_WR (R49). -/
def execPalWr (offset : Offset) (data : PalData) (s : State) : Host.Outcome State Fault Refusal :=
  execPalWrOn Config.palette offset data s

end Sys2Proof.Machine
end

