-- ==== Sys2Proof/Machine/Raster.lean ====
section
/-! DEFINITION. The palette lookup rasterizer: RASTER_LINE (rules R53 to R67). The steps of R66 are written once, and both
granularities take them: `pair` one at each step of the machine, `line` all of them in one. -/

namespace Sys2Proof.Machine

/-- The first step of a RASTER_LINE (R53, R63, R66): the scanline check, then the row base, the cursor from coladdr and x
from heblnk. -/
def startLine (p : RasterParams) (s : State) : State :=
  if s.cfg.screenLines ≤ p.scanline then s.raise (.scanlineOutOfRange p.scanline)
  else s.setLine (some { params := p, base := rowBase p.rowaddr, cursor := p.coladdr, x := p.heblnk })

/-- A fault inside a RASTER_LINE ends it (R73): the remainder is not performed, so no line stays partly done (log
entry 11). -/
def abandonLine (f : Fault) (s : State) : State :=
  (s.setLine none).raise f

/-- PAIR, one iteration of the loop (R57), in R57's order of checks: the word, the first pixel, the second pixel. -/
def pairStep (dev : PaletteDevice) (q : LineProgress) (s : State) : State :=
  let i := wordIndex q.base q.cursor
  if s.cfg.vramWords ≤ i then abandonLine (.vramOutOfRange i) s
  else
    let w := Memory.readWord s.vram i
    let n := q.params.scanline
    if s.cfg.lineWidth ≤ q.x then abandonLine (.lineBufferOverflow n q.x) s
    else
      let first := s.setFrame (Frame.write s.frame n q.x (dev.palPens s.pal (penFirst w)))
      if s.cfg.lineWidth ≤ q.x + 1 then abandonLine (.lineBufferOverflow n (q.x + 1)) first
      else
        (first.setFrame (Frame.write first.frame n (q.x + 1) (dev.palPens s.pal (penSecond w)))).setLine
          (some { q with cursor := q.cursor + 1, x := q.x + 2 })

/-- The final step of a RASTER_LINE (R53, R66): the event; the cursor and x do not survive it (R21). -/
def finishLine (q : LineProgress) (s : State) : State :=
  (s.setLine none).emit (.rasterLine q.params)

/-- The next step of the RASTER_LINE partly done, if there is one: a pair step while x < hsblnk (R56), then the final
step. -/
def advanceLine (dev : PaletteDevice) (s : State) : State :=
  match s.line with
  | none => s
  | some q => if q.x < q.params.hsblnk then pairStep dev q s else finishLine q s

/-- Take n steps of the RASTER_LINE partly done, with nothing between them. -/
def runLine (dev : PaletteDevice) : Nat → State → State
  | 0, s => s
  | n + 1, s => runLine dev n (advanceLine dev s)

/-- RASTER_LINE on a device (R53, R66): the whole line under `line`, its first step under `pair`. A RASTER_LINE while
another is partly done is not an operation the driver may issue (R66). -/
def execRasterLineOn (dev : PaletteDevice) (p : RasterParams) (s : State) : Host.Outcome State Fault Refusal :=
  whenRunning s
    (match s.line with
    | some _ => .refused .lineInProgress
    | none =>
      match s.cfg.granularity with
      | .line => .next (runLine dev (pairCount p.heblnk p.hsblnk + 1) (startLine p s))
      | .pair => .next (startLine p s))

/-- RASTER_LINE (R53). -/
def execRasterLine (scanline rowaddr coladdr heblnk hsblnk : Nat) (s : State) : Host.Outcome State Fault Refusal :=
  execRasterLineOn Config.palette
    { scanline := scanline, rowaddr := rowaddr, coladdr := coladdr, heblnk := heblnk, hsblnk := hsblnk } s

end Sys2Proof.Machine
end

