-- ==== Sys2Proof/Machine/Sink.lean ====
section
/-! DEFINITION. The interrupt acknowledgment sink: IRQ_ACK (rule R68). -/

namespace Sys2Proof.Machine

/-- IRQ_ACK (R68): the new state of the CPU's output-interrupt line is passed through to the host, recorded as an event;
nothing else changes, and repeated levels are not filtered. -/
def execIrqAck (level : BitVec 1) (s : State) : Host.Outcome State Fault Refusal :=
  whenRunning s (.next (s.emit (.irqAck level)))

end Sys2Proof.Machine
end

