-- ==== Sys2Proof/Machine/Vram.lean ====
section
/-! DEFINITION. The driver's VRAM accesses: VRAM_RD (rule R69) and VRAM_WR (R70). -/

namespace Sys2Proof.Machine

/-- VRAM_RD past its range check (R69). -/
def vramRead (index : Nat) (s : State) : State :=
  s.emit (.vramRead index (Memory.readWord s.vram index))

/-- VRAM_WR past its range check (R70). -/
def vramWrite (index : Nat) (value : VramWord) (be : BitVec 2) (s : State) : State :=
  (s.setVram (Memory.writeWord s.vram index (mergeWord (Memory.readWord s.vram index) value be))).emit
    (.vramWrite index value be)

/-- The range check of the driver's VRAM accesses, before any access (R32, R74). -/
def whenBacked (index : Nat) (k : State → State) (s : State) : State :=
  if s.cfg.vramWords ≤ index then s.raise (.vramOutOfRange index) else k s

/-- VRAM_RD (R69). -/
def execVramRd (index : Nat) (s : State) : Host.Outcome State Fault Refusal :=
  whenRunning s (.next (whenBacked index (vramRead index) s))

/-- VRAM_WR (R70). -/
def execVramWr (index : Nat) (value : VramWord) (be : BitVec 2) (s : State) : Host.Outcome State Fault Refusal :=
  whenRunning s (.next (whenBacked index (vramWrite index value be) s))

end Sys2Proof.Machine
end

