-- ==== Sys2Proof/Machine/Driver.lean ====
section
/-! DEFINITION. The one kind of step the model has (rule R6): the driver makes its next move and the block performs it.
Written for any device, with what performs an operation as an argument. -/

namespace Sys2Proof.Machine

/-- Every operation on a device (R19): the machine's exec with the device as an argument, for claims that assume a named
property of the device (D2). -/
def execOn (dev : PaletteDevice) (i : Instr) (s : State) : Host.Outcome State Fault Refusal :=
  match i with
  | .palRd offset => execPalRdOn dev offset s
  | .palWr offset data => execPalWrOn dev offset data s
  | .rasterLine scanline rowaddr coladdr heblnk hsblnk =>
    execRasterLineOn dev
      { scanline := scanline, rowaddr := rowaddr, coladdr := coladdr, heblnk := heblnk, hsblnk := hsblnk } s
  | .irqAck level => execIrqAck level s
  | .vramRd index => execVramRd index s
  | .vramWr index value be => execVramWr index value be s

/-- The driver issues a record (R6, R38): the operation is performed; a reserved kind raises its fault and nothing is
performed (R44, R72); a record R38 does not allow is no operation (log entry 12). -/
def issueRecord (run : Instr → State → Host.Outcome State Fault Refusal) (r : OpRecord) (s : State) :
    Host.Outcome State Fault Refusal :=
  match decode r with
  | .ok i => run i s
  | .error (.reservedKind k) => .next (s.raise (.reservedKind k))
  | .error (.missingField f) => .refused (.missingField f)
  | .error (.foreignField f) => .refused (.foreignField f)

/-- The driver lets the RASTER_LINE partly done take its next step (R66). -/
def advanceMove (dev : PaletteDevice) (s : State) : Host.Outcome State Fault Refusal :=
  match s.line with
  | none => .refused .nothingToAdvance
  | some _ => .next (advanceLine dev s)

/-- The driver has nothing more to issue (R81): a RASTER_LINE partly done goes on to its end, and with none the run has
ended (log entry 7). -/
def idleMove (dev : PaletteDevice) (s : State) : Host.Outcome State Fault Refusal :=
  match s.line with
  | none => .refused .endOfRun
  | some _ => .next (advanceLine dev s)

/-- One step (R6, R33): after a fault none is taken (R73); else the driver's oldest move is taken off the schedule and
made. -/
def driverStep (dev : PaletteDevice) (run : Instr → State → Host.Outcome State Fault Refusal) (s : State) :
    Host.Outcome State Fault Refusal :=
  whenRunning s
    (match s.schedule with
    | [] => idleMove dev s
    | .advance :: rest => advanceMove dev (s.setSchedule rest)
    | .issue r :: rest => issueRecord run r (s.setSchedule rest))

/-- One step on a device (R19). -/
def stepOn (dev : PaletteDevice) (s : State) : Host.Outcome State Fault Refusal :=
  driverStep dev (execOn dev) s

/-- The driver is about to issue a record. -/
def issueNext (r : OpRecord) (s : State) : State :=
  s.setSchedule (.issue r :: s.schedule)

end Sys2Proof.Machine
end

