-- ==== Sys2Proof/Machine/Dispatch.lean ====
section
/-! DEFINITION. exec: one arm per operation (rule R39), each one direct call of its meaning. -/

namespace Sys2Proof.Machine

def exec (i : Instr) (s : State) : Host.Outcome State Fault Refusal :=
  match i with
  | .palRd offset => Sys2Proof.Machine.execPalRd offset s
  | .palWr offset data => Sys2Proof.Machine.execPalWr offset data s
  | .rasterLine scanline rowaddr coladdr heblnk hsblnk => Sys2Proof.Machine.execRasterLine scanline rowaddr coladdr heblnk hsblnk s
  | .irqAck level => Sys2Proof.Machine.execIrqAck level s
  | .vramRd index => Sys2Proof.Machine.execVramRd index s
  | .vramWr index value be => Sys2Proof.Machine.execVramWr index value be s

end Sys2Proof.Machine
end

