-- ==== Sys2Proof/Machine/Step.lean ====
section
/-! DEFINITION. The machine's step (rule R6), and how an opcode-table word is placed where it issues next. -/

namespace Sys2Proof.Machine

/-- One step of the machine (R6, R33): the driver's next move, performed on the machine's palette device. -/
def step (s : State) : Host.Outcome State Fault Refusal :=
  driverStep Config.palette exec s

/-- The state in which the driver issues an opcode-table word's operation next (log entries 6 and 13). -/
def State.withFetchWord (s : State) (nbits w : Nat) : State :=
  issueNext (recordOfTableWord nbits w) s

end Sys2Proof.Machine
end

