-- ==== Sys2Proof/Machine/Assembler.lean ====
section
/-! DEFINITION. The assembler of rule R46: the text of one line, its expansion (with the four pseudo-instructions) and the
record it assembles to. -/

namespace Sys2Proof.Machine

/-- A number that fits the width of its field; a number that does not is a syntax error (R38's widths; log entry 15). -/
def sized (w n : Nat) : Option (BitVec w) :=
  if n < 2 ^ w then some (BitVec.ofNat w n) else none

/-- A register index that some offset reaches, 0 to 7; any other is a syntax error (R46). -/
def reachable (r : Nat) : Option (BitVec 3) :=
  sized 3 r

/-- The operation a line stands for, none for a syntax error (R46). -/
def AsmLine.expand : AsmLine → Option Instr
  | .palRd offset => do
    let o ← sized 16 offset
    return .palRd o
  | .palWr offset data => do
    let o ← sized 16 offset
    return .palWr o ⟨data⟩
  | .raster line row col he hs => some (.rasterLine line row col he hs)
  | .irqAck level => do
    let l ← sized 1 level
    return .irqAck l
  | .vramRd index => some (.vramRd index)
  | .vramWr index value be => do
    let v ← sized 16 value
    let b ← sized 2 (be.getD 3)
    return .vramWr index v b
  | .palRdr r => do
    let i ← reachable r
    return .palRd (canon i)
  | .palWrr r data => do
    let i ← reachable r
    return .palWr (canon i) ⟨data⟩
  | .vramWrl index b => do
    let v ← sized 8 b
    return .vramWr index (v.setWidth 16) 1#2
  | .vramWrh index b => do
    let v ← sized 8 b
    return .vramWr index (v.setWidth 16 <<< 8) 2#2

/-! ### Text -/

/-- The value of a digit in a base. -/
def digitValue (base : Nat) (c : Char) : Option Nat :=
  let n := c.toNat
  let v :=
    if 48 ≤ n ∧ n ≤ 57 then n - 48
    else if 97 ≤ n ∧ n ≤ 102 then n - 87
    else if 65 ≤ n ∧ n ≤ 70 then n - 55
    else base
  if v < base then some v else none

/-- Digits after those already read. -/
def digitsFrom (base acc : Nat) : List Char → Option Nat
  | [] => some acc
  | c :: rest =>
    match digitValue base c with
    | some v => digitsFrom base (acc * base + v) rest
    | none => none

/-- At least one digit. -/
def digits (base : Nat) : List Char → Option Nat
  | [] => none
  | c :: rest => digitsFrom base 0 (c :: rest)

/-- A number: decimal or 0x hexadecimal (R46), and 0b binary, which R10's notation and the test vectors write byte
enables in (log entry 15). -/
def number : List Char → Option Nat
  | '0' :: 'x' :: rest => digits 16 rest
  | '0' :: 'b' :: rest => digits 2 rest
  | cs => digits 10 cs

/-- The text between commas. -/
def splitCommas : List Char → List (List Char)
  | [] => [[]]
  | c :: rest =>
    match splitCommas rest with
    | [] => [[c]]
    | head :: tail => if c = ',' then [] :: head :: tail else (c :: head) :: tail

/-- A text without the spaces around it. -/
def trimmed (cs : List Char) : List Char :=
  ((cs.dropWhile (· = ' ')).reverse.dropWhile (· = ' ')).reverse

/-- The operands of a line. -/
def operands (cs : List Char) : Option (List Nat) :=
  (splitCommas cs).mapM fun t => number (trimmed t)

/-- The line a mnemonic and its operands make (R46). -/
def asmLine (mnemonic : String) (ops : List Nat) : Option AsmLine :=
  match mnemonic, ops with
  | "pal.rd", [o] => some (.palRd o)
  | "pal.wr", [o, d] => some (.palWr o d)
  | "raster", [line, row, col, he, hs] => some (.raster line row col he hs)
  | "irq.ack", [level] => some (.irqAck level)
  | "vram.rd", [index] => some (.vramRd index)
  | "vram.wr", [index, value] => some (.vramWr index value none)
  | "vram.wr", [index, value, be] => some (.vramWr index value (some be))
  | "pal.rdr", [r] => some (.palRdr r)
  | "pal.wrr", [r, d] => some (.palWrr r d)
  | "vram.wrl", [index, b] => some (.vramWrl index b)
  | "vram.wrh", [index, b] => some (.vramWrh index b)
  | _, _ => none

/-- Read one line of text (R46). -/
def parseLine (text : String) : Option AsmLine :=
  let cs := trimmed text.toList
  match operands (cs.dropWhile (· ≠ ' ')) with
  | some ops => asmLine (String.ofList (cs.takeWhile (· ≠ ' '))) ops
  | none => none

/-- The operation a line of text stands for. -/
def assembleInstr (text : String) : Option Instr :=
  (parseLine text).bind AsmLine.expand

/-- The record a line of text assembles to (R46, R38). -/
def assemble (text : String) : Option OpRecord :=
  (assembleInstr text).map encode

end Sys2Proof.Machine
end

