-- ==== Sys2Proof/Safety.lean ====
section
/-! DEFINITION. What counts as a safe run: the invariant of the machine's state, and a driver that keeps its duties
(rule R83). -/

namespace Sys2Proof.Machine

/-- A RASTER_LINE partly done is one its first step let through, with some number of pairs done (R21, R55, R56). -/
def LineProgress.Inv (cfg : Config) (q : LineProgress) : Prop :=
  q.params.scanline < cfg.screenLines ∧ q.base = rowBase q.params.rowaddr ∧
    ∃ k, k ≤ pairCount q.params.heblnk q.params.hsblnk ∧ q.cursor = q.params.coladdr + k ∧ q.x = q.params.heblnk + 2 * k

/-- The invariant of the state: VRAM and the output lines are in canonical form and inside the address spaces of R20; no
RASTER_LINE is held between steps under granularity `line` (R21, R66); one that is partly done stands at a pair of its
own. -/
structure State.Inv (s : State) : Prop where
  vramWf : Memory.wf s.vram
  vramWithin : Memory.within s.cfg.vramWords s.vram
  frameWf : Frame.wf s.frame
  frameWithin : Frame.within s.cfg s.frame
  lineAtomic : s.cfg.granularity = .line → s.line = none
  lineInv : ∀ q, s.line = some q → LineProgress.Inv s.cfg q

/-- A move whose operation, if it issues one, meets the driver's duties (R83). -/
def DriverMove.dutiful (cfg : Config) : DriverMove → Bool
  | .issue r =>
    match decode r with
    | .ok i => cfg.dutiesMet i
    | .error _ => false
  | .advance => true

/-- A state in which nothing has gone wrong and the driver keeps its duties in all it has yet to do, and in the RASTER_LINE
partly done if there is one (R83). The backed extent may be of any size: duty 7 is one of each RASTER_LINE's duties. -/
structure State.Dutiful (s : State) : Prop where
  inv : s.Inv
  noFault : s.fault = none
  moves : ∀ m ∈ s.schedule, DriverMove.dutiful s.cfg m = true
  lineDuties : ∀ q, s.line = some q → s.cfg.rasterDuties q.params = true

/-- The colour index of the d-th pixel a RASTER_LINE draws from a row base and a column cursor (R25, R43, R55): the low
byte of its word where d is even, the high byte where it is odd. -/
def linePen (vram : Memory) (base cursor d : Nat) : Byte :=
  let w := Memory.readWord vram (wordIndex base (cursor + d / 2))
  if d % 2 = 0 then penFirst w else penSecond w

/-- The colour index a RASTER_LINE resolves for output position x (R43). -/
def penAt (p : RasterParams) (vram : Memory) (x : Nat) : Byte :=
  linePen vram (rowBase p.rowaddr) p.coladdr (x - p.heblnk)

/-- The RASTER_LINE of some raster parameters (R17, R38). -/
def rasterOf (p : RasterParams) : Instr :=
  .rasterLine p.scanline p.rowaddr p.coladdr p.heblnk p.hsblnk

/-- The word of a RASTER_LINE's pair is backed, for every pair the line comes to with no pixel before it outside the buffer:
as far as the line gets, it is not a word that stops it (R57, R74). -/
def wordsBacked (cfg : Config) (p : RasterParams) : Prop :=
  ∀ k < pairCount p.heblnk p.hsblnk, (∀ j < k, p.heblnk + 2 * j + 1 < cfg.lineWidth) →
    wordIndex (rowBase p.rowaddr) (p.coladdr + k) < cfg.vramWords

/-- Pair k of a RASTER_LINE faults neither on its word nor on its two pixels (R57). -/
def pairFits (cfg : Config) (p : RasterParams) (k : Nat) : Prop :=
  wordIndex (rowBase p.rowaddr) (p.coladdr + k) < cfg.vramWords ∧ p.heblnk + 2 * k + 1 < cfg.lineWidth

/-- A state in which a RASTER_LINE is performed whole in one step: no fault is recorded (R73), no RASTER_LINE is partly done
and the granularity is `line` (R66). -/
def State.LineReady (s : State) : Prop :=
  s.fault = none ∧ s.line = none ∧ s.cfg.granularity = .line

/-- A safe state: no fault is recorded (R73). -/
def State.Safe (s : State) : Prop :=
  s.fault = none

end Sys2Proof.Machine
end

