-- ==== Sys2Proof/Certificates/Slice0/Obligations.lean ====
section
/-! DEFINITION. The statements for the provers, from the numbered rules of spec/. -/

open Sys2Proof Sys2Proof.Machine

/-! ### The register address decoder -/

/-- R42: the decoder's algorithm equals the closed form on every 16-bit offset, and the canonical offsets are the eight
listed. -/
def Obligations.TranslateEqualsClosedForm : Prop :=
  (∀ o : Offset, translateOffset o = translateClosedForm o) ∧
    (∀ o : Offset, translateOffset o = (o.extractLsb' 15 1 ++ o.extractLsb' 13 1 ++ o.extractLsb' 12 1).setWidth 4) ∧
    (∀ r : BitVec 3, canon r = ((r.extractLsb' 2 1).setWidth 16 <<< 15) ||| ((r.extractLsb' 1 1).setWidth 16 <<< 13)
      ||| ((r.extractLsb' 0 1).setWidth 16 <<< 12)) ∧
    [0, 1, 2, 3, 4, 5, 6, 7].map canon = [0x0000, 0x1000, 0x2000, 0x3000, 0x8000, 0x9000, 0xA000, 0xB000] ∧
    ∀ r : BitVec 3, translateOffset (canon r) = r.setWidth 4

/-- R51: the index lies in 0 to 7, and where bit 3 of (o >> 12) & ~4 is set it is cleared and bit 2 set, nothing else
altered. -/
def Obligations.TranslateStaysBelowEight : Prop :=
  ∀ o : Offset,
    (translateOffset o).toNat ≤ 7 ∧ (translateOffset o).getLsbD 3 = false ∧
      (((o >>> 12).setWidth 4 &&& ~~~4#4).getLsbD 3 = true →
        translateOffset o = ((o >>> 12).setWidth 4 &&& ~~~4#4 &&& ~~~8#4) ||| 4#4)

/-- R41: the complete decode of o[15:12], and which two values of it reach an index. -/
def Obligations.TranslateFollowsTheTable : Prop :=
  ∀ (n : BitVec 4) (low : BitVec 12),
    (translateOffset (n ++ low)).toNat = [0, 1, 2, 3, 0, 1, 2, 3, 4, 5, 6, 7, 4, 5, 6, 7].getD n.toNat 0 ∧
      ∀ r : BitVec 3, translateOffset (n ++ low) = r.setWidth 4 ↔
        n = (canon r).extractLsb' 12 4 ∨ n = (canon r).extractLsb' 12 4 ||| 4#4

/-- R50: PAL_WR and PAL_RD forward to the register the same decoder gives, so that offsets reach the same register exactly
when their bits 15, 13 and 12 agree; and a read through an alias of a written offset reads that register of the device
that was written. -/
def Obligations.AliasesReachTheSameRegister : Prop :=
  (∀ o₁ o₂ : Offset, translateOffset o₁ = translateOffset o₂ ↔
      o₁.getLsbD 15 = o₂.getLsbD 15 ∧ o₁.getLsbD 13 = o₂.getLsbD 13 ∧ o₁.getLsbD 12 = o₂.getLsbD 12) ∧
    ∀ (dev : PaletteDevice) (o₁ o₂ : Offset) (d : PalData) (s : State),
      s.fault = none → translateOffset o₁ = translateOffset o₂ →
        ∃ t u, execOn dev (.palWr o₁ d) s = .next t ∧ execOn dev (.palRd o₂) t = .next u ∧
          t.pal = dev.palWrite s.pal (translateOffset o₁) d ∧
          u.lastReturned = some (.palData (dev.palRead t.pal (translateOffset o₁)).1)

/-- R50 with a device that keeps what is written to the register (a named property of the device, D2): a value written through one alias is
read back through another. -/
def Obligations.AliasedReadBack : Prop :=
  ∀ (dev : PaletteDevice) (o₁ o₂ : Offset) (d : PalData) (s : State),
    (∀ p, (dev.palRead (dev.palWrite p (translateOffset o₁) d) (translateOffset o₁)).1 = d) →
      s.fault = none →
        o₁.getLsbD 15 = o₂.getLsbD 15 → o₁.getLsbD 13 = o₂.getLsbD 13 → o₁.getLsbD 12 = o₂.getLsbD 12 →
          ∃ t u, execOn dev (.palWr o₁ d) s = .next t ∧ execOn dev (.palRd o₂) t = .next u ∧
            u.lastReturned = some (.palData d)

/-- R47: bit 14 and bits 11 to 0 of the offset never affect the result. -/
def Obligations.TranslateIgnoresUnusedBits : Prop :=
  ∀ o m : Offset, translateOffset (o ^^^ (m &&& 0x4FFF#16)) = translateOffset o

/-! ### The palette window -/

/-- R48: PAL_RD takes the device's answer and new state at the decoded register, records it, returns it, and changes nothing
else, for every offset. -/
def Obligations.PalRdForwardsToTheDevice : Prop :=
  ∀ (offset : Offset) (s : State),
    s.fault = none →
      ∃ t, exec (.palRd offset) s = .next t ∧
        t = { s with
          pal := (Config.palette.palRead s.pal (translateOffset offset)).2
          events := s.events ++
            [.palRead offset (translateOffset offset) (Config.palette.palRead s.pal (translateOffset offset)).1] } ∧
        t.lastReturned = some (.palData (Config.palette.palRead s.pal (translateOffset offset)).1)

/-- R49: PAL_WR writes the data unchanged to the decoded register, records it, and changes nothing else, for every offset. -/
def Obligations.PalWrForwardsToTheDevice : Prop :=
  ∀ (offset : Offset) (data : PalData) (s : State),
    s.fault = none →
      exec (.palWr offset data) s =
        .next { s with
          pal := Config.palette.palWrite s.pal (translateOffset offset) data
          events := s.events ++ [.palWrite offset (translateOffset offset) data] }

/-! ### The rasterizer: addresses -/

/-- R54: the row base equals its closed form, a multiple of 256 up to 0x3FF00, and lies within a VRAM extent that covers
the rasterizer's reach. -/
def Obligations.RowBaseSelectsOneOf1024Rows : Prop :=
  ∀ rowaddr : Nat,
    rowBase rowaddr = (rowaddr <<< 8) &&& 0x3FF00 ∧ rowBase rowaddr = rowaddr % 1024 * 256 ∧
      256 ∣ rowBase rowaddr ∧ rowBase rowaddr ≤ 0x3FF00 ∧
      ∀ cfg : Config, cfg.coversReach = true → rowBase rowaddr < cfg.vramWords

/-- R43, R55: the word index of a pair lies in the row its row base names, at the cursor modulo 256, with no carry. -/
def Obligations.WordIndexStaysInItsRow : Prop :=
  ∀ rowaddr cursor : Nat,
    wordIndex (rowBase rowaddr) cursor = rowBase rowaddr + cursor % 256 ∧
      wordIndex (rowBase rowaddr) cursor = rowBase rowaddr ||| (cursor &&& 0xFF) ∧
      wordIndex (rowBase rowaddr) cursor / 256 = rowaddr % 1024 ∧
      wordIndex (rowBase rowaddr) cursor < 0x40000

/-- R56: pair k is taken exactly while heblnk + 2k < hsblnk. -/
def Obligations.PairCountIsTheLoopCount : Prop :=
  ∀ heblnk hsblnk k : Nat, heblnk + 2 * k < hsblnk ↔ k < pairCount heblnk hsblnk

/-! ### The rasterizer: a whole line -/

/-- R53, R57, R58: where the scanline has a buffer and no pair faults, RASTER_LINE draws its pairs through the current colour
table, records its event, and changes nothing else. -/
def Obligations.RasterLineDrawsItsPairs : Prop :=
  ∀ (p : RasterParams) (s : State),
    s.LineReady → p.scanline < s.cfg.screenLines → (∀ k < pairCount p.heblnk p.hsblnk, pairFits s.cfg p k) →
      ∃ f, exec (rasterOf p) s = .next { s with frame := f, events := s.events ++ [.rasterLine p] } ∧
        ∀ m x, Frame.read f m x =
          if m = p.scanline ∧ p.heblnk ≤ x ∧ x < p.heblnk + 2 * pairCount p.heblnk p.hsblnk then
            some (Config.palette.palPens s.pal (penAt p s.vram x))
          else Frame.read s.frame m x

/-- R59: on an even span inside the buffer, with every word backed, exactly the positions heblnk to hsblnk - 1 of the
scanline are written, from (hsblnk - heblnk)/2 words; every other pixel keeps its value. -/
def Obligations.EvenSpanWritesExactlyTheSpan : Prop :=
  ∀ (p : RasterParams) (s : State),
    s.LineReady → p.scanline < s.cfg.screenLines → p.heblnk ≤ p.hsblnk → (p.hsblnk - p.heblnk) % 2 = 0 →
      p.hsblnk ≤ s.cfg.lineWidth →
      (∀ k < (p.hsblnk - p.heblnk) / 2, wordIndex (rowBase p.rowaddr) (p.coladdr + k) < s.cfg.vramWords) →
        pairCount p.heblnk p.hsblnk = (p.hsblnk - p.heblnk) / 2 ∧
          ∃ t, exec (rasterOf p) s = .next t ∧ t.fault = none ∧
            (∀ x, p.heblnk ≤ x → x < p.hsblnk →
              Frame.read t.frame p.scanline x = some (Config.palette.palPens s.pal (penAt p s.vram x))) ∧
            (∀ x, x < p.heblnk ∨ p.hsblnk ≤ x →
              Frame.read t.frame p.scanline x = Frame.read s.frame p.scanline x) ∧
            ∀ m x, m ≠ p.scanline → Frame.read t.frame m x = Frame.read s.frame m x

/-- R60: with heblnk >= hsblnk nothing is read or written; only the scanline check can fault. Under `line` one step does it
all; under `pair` the step after the first is the final one. -/
def Obligations.EmptySpanDrawsNothing : Prop :=
  ∀ (p : RasterParams) (s : State),
    s.fault = none → s.line = none → p.hsblnk ≤ p.heblnk →
      (s.cfg.screenLines ≤ p.scanline →
        exec (rasterOf p) s = .next { s with fault := some (.scanlineOutOfRange p.scanline) }) ∧
      (p.scanline < s.cfg.screenLines → s.cfg.granularity = .line →
        exec (rasterOf p) s = .next { s with events := s.events ++ [.rasterLine p] }) ∧
      (p.scanline < s.cfg.screenLines → s.cfg.granularity = .pair →
        ∃ q, q = { params := p, base := rowBase p.rowaddr, cursor := p.coladdr, x := p.heblnk } ∧
          exec (rasterOf p) s = .next { s with line := some q } ∧
          advanceLine Config.palette { s with line := some q } = { s with events := s.events ++ [.rasterLine p] })

/-- R61: on an odd span whose words are backed as far as the line gets, the loop runs ceil((hsblnk - heblnk)/2) times; where hsblnk is inside the buffer the positions
heblnk to hsblnk are written, hsblnk among them; where it is not, the line faults at the first position outside the
buffer. -/
def Obligations.OddSpanWritesThroughItsEnd : Prop :=
  ∀ (p : RasterParams) (s : State),
    s.LineReady → p.scanline < s.cfg.screenLines → p.heblnk < p.hsblnk → (p.hsblnk - p.heblnk) % 2 = 1 →
      wordsBacked s.cfg p →
        p.hsblnk - p.heblnk + 1 = 2 * pairCount p.heblnk p.hsblnk ∧
          ∃ t, exec (rasterOf p) s = .next t ∧
            (p.hsblnk < s.cfg.lineWidth →
              t.fault = none ∧
                (∀ x, p.heblnk ≤ x → x ≤ p.hsblnk →
                  Frame.read t.frame p.scanline x = some (Config.palette.palPens s.pal (penAt p s.vram x))) ∧
                ∀ x, x < p.heblnk ∨ p.hsblnk < x →
                  Frame.read t.frame p.scanline x = Frame.read s.frame p.scanline x) ∧
            (s.cfg.lineWidth ≤ p.hsblnk →
              t.fault = some (.lineBufferOverflow p.scanline (max p.heblnk s.cfg.lineWidth)))

/-- R62, R73, R74: where the pairs pass the end of the buffer and the words are backed up to the pair that does, whatever
the words of later pairs, RASTER_LINE faults at the first position outside the buffer; the pixels before it stay written,
and nothing else changes. -/
def Obligations.OverflowFaultKeepsDrawnPixels : Prop :=
  ∀ (p : RasterParams) (s : State),
    s.LineReady → p.scanline < s.cfg.screenLines → p.heblnk < p.hsblnk →
      s.cfg.lineWidth < p.heblnk + 2 * pairCount p.heblnk p.hsblnk → wordsBacked s.cfg p →
        ∃ f, exec (rasterOf p) s =
            .next { s with
              frame := f
              fault := some (.lineBufferOverflow p.scanline (max p.heblnk s.cfg.lineWidth)) } ∧
          ∀ m x, Frame.read f m x =
            if m = p.scanline ∧ p.heblnk ≤ x ∧ x < s.cfg.lineWidth then
              some (Config.palette.palPens s.pal (penAt p s.vram x))
            else Frame.read s.frame m x

/-- R57, R72, R73, R74: at the first pair whose word is not backed RASTER_LINE faults with its index, whatever its pixel
positions; the pairs before it stay drawn, and nothing else changes. -/
def Obligations.UnbackedWordFaultsBeforeItsPixels : Prop :=
  ∀ (p : RasterParams) (k : Nat) (s : State),
    s.LineReady → p.scanline < s.cfg.screenLines → k < pairCount p.heblnk p.hsblnk →
      (∀ j < k, pairFits s.cfg p j) → s.cfg.vramWords ≤ wordIndex (rowBase p.rowaddr) (p.coladdr + k) →
        ∃ f, exec (rasterOf p) s =
            .next { s with
              frame := f
              fault := some (.vramOutOfRange (wordIndex (rowBase p.rowaddr) (p.coladdr + k))) } ∧
          ∀ m x, Frame.read f m x =
            if m = p.scanline ∧ p.heblnk ≤ x ∧ x < p.heblnk + 2 * k then
              some (Config.palette.palPens s.pal (penAt p s.vram x))
            else Frame.read s.frame m x

/-- R63: a scanline with no buffer faults before anything is read or written, under either granularity; else the scanline
only selects the line: two scanlines whose buffers hold the same pixels hold the same pixels after it. -/
def Obligations.ScanlineOnlySelectsTheBuffer : Prop :=
  (∀ (p : RasterParams) (s : State),
      s.fault = none → s.line = none → s.cfg.screenLines ≤ p.scanline →
        exec (rasterOf p) s = .next { s with fault := some (.scanlineOutOfRange p.scanline) }) ∧
    ∀ (p : RasterParams) (n : Nat) (s : State),
      s.LineReady → p.scanline < s.cfg.screenLines → n < s.cfg.screenLines →
        (∀ x, Frame.read s.frame p.scanline x = Frame.read s.frame n x) →
          ∃ t u, exec (rasterOf p) s = .next t ∧ exec (rasterOf { p with scanline := n }) s = .next u ∧
            (t.fault = none ↔ u.fault = none) ∧
            ∀ x, Frame.read t.frame p.scanline x = Frame.read u.frame n x

/-- R64: RASTER_LINE changes only the scanline's buffer, the events and, on a fault, the fault; and of the device it uses
only the colour table. The line held between steps is the model's `pair` bookkeeping (R66). -/
def Obligations.RasterLineFrame : Prop :=
  (∀ (p : RasterParams) (s t : State),
      exec (rasterOf p) s = .next t →
        t.vram = s.vram ∧ t.pal = s.pal ∧ t.cfg = s.cfg ∧ t.schedule = s.schedule ∧
          (∀ m x, m ≠ p.scanline ∨ x < p.heblnk ∨ p.heblnk + 2 * pairCount p.heblnk p.hsblnk ≤ x →
            Frame.read t.frame m x = Frame.read s.frame m x) ∧
          (t.events = s.events ∨ (t.fault = none ∧ t.events = s.events ++ [.rasterLine p])) ∧
          (s.cfg.granularity = .line → t.line = none)) ∧
    (∀ (q : LineProgress) (s : State),
      s.line = some q →
        ∃ t, advanceLine Config.palette s = t ∧ t.vram = s.vram ∧ t.pal = s.pal ∧ t.cfg = s.cfg ∧
          t.schedule = s.schedule ∧
          (∀ m x, m ≠ q.params.scanline ∨ (x ≠ q.x ∧ x ≠ q.x + 1) →
            Frame.read t.frame m x = Frame.read s.frame m x) ∧
          (t.events = s.events ∨ t.events = s.events ++ [.rasterLine q.params])) ∧
    ∀ (dev dev' : PaletteDevice) (p : RasterParams) (s : State),
      dev.palPens = dev'.palPens →
        execOn dev (rasterOf p) s = execOn dev' (rasterOf p) s ∧ advanceLine dev s = advanceLine dev' s

/-- R65: rowaddr behaves as rowaddr mod 1024 and coladdr as coladdr mod 256: the same line is drawn with the same fault, if
any; and a cursor that passes 255 stays in its row. -/
def Obligations.RowAndColumnAddressesWrap : Prop :=
  (∀ (p : RasterParams) (s : State),
      s.LineReady →
        ∃ t u, exec (rasterOf p) s = .next t ∧
          exec (rasterOf { p with rowaddr := p.rowaddr % 1024, coladdr := p.coladdr % 256 }) s = .next u ∧
          t.frame = u.frame ∧ t.fault = u.fault) ∧
    ∀ rowaddr cursor, cursor % 256 = 255 →
      wordIndex (rowBase rowaddr) cursor = rowBase rowaddr + 255 ∧
        wordIndex (rowBase rowaddr) (cursor + 1) = rowBase rowaddr

/-- R31, R65: a RASTER_LINE reads only its own row: VRAMs that agree on the row's words give the same line and the same
fault. -/
def Obligations.RasterLineReadsOnlyItsRow : Prop :=
  ∀ (p : RasterParams) (m : Memory) (s : State),
    s.LineReady →
      (∀ i, i / 256 = p.rowaddr % 1024 → Memory.readWord m i = Memory.readWord s.vram i) →
        ∃ t, exec (rasterOf p) s = .next t ∧ exec (rasterOf p) { s with vram := m } = .next { t with vram := m }

/-- R67: under `line` granularity two pixels of one RASTER_LINE with the same colour index get the same colour. -/
def Obligations.SameIndexSameColour : Prop :=
  ∀ (p : RasterParams) (s t : State) (x y : Nat),
    s.LineReady → exec (rasterOf p) s = .next t → t.fault = none →
      p.heblnk ≤ x → x < p.hsblnk → p.heblnk ≤ y → y < p.hsblnk → penAt p s.vram x = penAt p s.vram y →
        ∃ c, Frame.read t.frame p.scanline x = some c ∧ Frame.read t.frame p.scanline y = some c

/-- R32: while the backed extent covers the rasterizer's reach, no RASTER_LINE and no step of one raises VramOutOfRange. -/
def Obligations.CoveredReachNeverFaults : Prop :=
  ∀ (s : State) (i : Nat),
    s.Inv → s.fault = none → s.cfg.coversReach = true →
      (∀ (p : RasterParams) (t : State), exec (rasterOf p) s = .next t → t.fault ≠ some (.vramOutOfRange i)) ∧
        (advanceLine Config.palette s).fault ≠ some (.vramOutOfRange i)

/-! ### The rasterizer: pair granularity -/

/-- R66: under `pair` a RASTER_LINE's own step computes the row base and holds the cursor and x. -/
def Obligations.PairGranularityStartsTheLine : Prop :=
  ∀ (p : RasterParams) (s : State),
    s.fault = none → s.line = none → s.cfg.granularity = .pair → p.scanline < s.cfg.screenLines →
      exec (rasterOf p) s =
        .next { s with line := some { params := p, base := rowBase p.rowaddr, cursor := p.coladdr, x := p.heblnk } }

/-- R57, R58, R66: a step of the line partly done draws one pair, through the colour table held now, and moves the cursor and
x on; past the end it records the event. A fault ends the line (the model's choice, log entry 11). -/
def Obligations.AdvanceTakesOnePair : Prop :=
  ∀ (q : LineProgress) (rest : List DriverMove) (s : State),
    s.fault = none → s.schedule = .advance :: rest → s.line = some q →
      (q.params.hsblnk ≤ q.x →
        step s = .next { s with schedule := rest, line := none, events := s.events ++ [.rasterLine q.params] }) ∧
      (q.x < q.params.hsblnk → s.cfg.vramWords ≤ wordIndex q.base q.cursor →
        step s =
          .next { s with schedule := rest, line := none, fault := some (.vramOutOfRange (wordIndex q.base q.cursor)) }) ∧
      (q.x < q.params.hsblnk → wordIndex q.base q.cursor < s.cfg.vramWords → s.cfg.lineWidth ≤ q.x →
        step s =
          .next { s with schedule := rest, line := none, fault := some (.lineBufferOverflow q.params.scanline q.x) }) ∧
      (q.x < q.params.hsblnk → wordIndex q.base q.cursor < s.cfg.vramWords → q.x + 1 = s.cfg.lineWidth →
        ∃ f, step s =
            .next { s with
              schedule := rest
              frame := f
              line := none
              fault := some (.lineBufferOverflow q.params.scanline (q.x + 1)) } ∧
          ∀ m x, Frame.read f m x =
            if m = q.params.scanline ∧ x = q.x then
              some (Config.palette.palPens s.pal (penFirst (Memory.readWord s.vram (wordIndex q.base q.cursor))))
            else Frame.read s.frame m x) ∧
      (q.x < q.params.hsblnk → wordIndex q.base q.cursor < s.cfg.vramWords → q.x + 1 < s.cfg.lineWidth →
        ∃ f, step s =
            .next { s with
              schedule := rest, frame := f, line := some { q with cursor := q.cursor + 1, x := q.x + 2 } } ∧
          ∀ m x, Frame.read f m x =
            if m = q.params.scanline ∧ x = q.x then
              some (Config.palette.palPens s.pal (penFirst (Memory.readWord s.vram (wordIndex q.base q.cursor))))
            else if m = q.params.scanline ∧ x = q.x + 1 then
              some (Config.palette.palPens s.pal (penSecond (Memory.readWord s.vram (wordIndex q.base q.cursor))))
            else Frame.read s.frame m x)

/-- R66: between two steps of a RASTER_LINE every operation but another RASTER_LINE is performed, and leaves the line where it
stood; another RASTER_LINE is refused by name (log entry 9). -/
def Obligations.OtherOperationsLeaveTheLine : Prop :=
  ∀ (q : LineProgress) (s : State),
    s.fault = none → s.line = some q →
      (∀ p, exec (rasterOf p) s = .refused .lineInProgress) ∧
        ∀ i, (∀ p, i ≠ rasterOf p) → ∃ t, exec i s = .next t ∧ t.line = some q

/-- R66: a `line` run is a `pair` run with nothing interleaved: the state a RASTER_LINE leaves under `line` is reached under
`pair` by issuing it and then only its own steps, which an idle driver lets the line take (the model's choice, log entry 7),
and without a fault that takes the first step, one step per pair and the final step (log entry 18). -/
def Obligations.LineRunIsAnUninterruptedPairRun : Prop :=
  ∀ (p : RasterParams) (s t : State),
    s.LineReady → s.schedule = [] → exec (rasterOf p) s = .next t →
      ∃ n, n ≤ pairCount p.heblnk p.hsblnk + 2 ∧
        Host.Core.run core n (issueNext (encode (rasterOf p)) { s with cfg := { s.cfg with granularity := .pair } }) =
          .next { t with cfg := { t.cfg with granularity := .pair } } ∧
        (t.fault = none → n = pairCount p.heblnk p.hsblnk + 2)

/-! ### Hazards -/

/-- R84: on every device, a PAL_WR before a RASTER_LINE is the table of the whole line, and a PAL_WR after it changes none of
its pixels. -/
def Obligations.PalWrTakesEffectBetweenLines : Prop :=
  ∀ (dev : PaletteDevice) (o : Offset) (d : PalData) (p : RasterParams) (s : State),
    s.LineReady → p.scanline < s.cfg.screenLines → (∀ k < pairCount p.heblnk p.hsblnk, pairFits s.cfg p k) →
      ∃ a b c, execOn dev (.palWr o d) s = .next a ∧ execOn dev (rasterOf p) a = .next b ∧
        execOn dev (.palWr o d) b = .next c ∧ c.frame = b.frame ∧
        ∀ x, p.heblnk ≤ x → x < p.hsblnk →
          Frame.read b.frame p.scanline x =
            some (dev.palPens (dev.palWrite s.pal (translateOffset o) d) (penAt p s.vram x))

/-- R35, R85, R25: a word written by VRAM_WR before a RASTER_LINE that reads it is drawn: its low byte at the even position,
its high byte at the next. -/
def Obligations.VramWrIsSeenByTheNextLine : Prop :=
  ∀ (p : RasterParams) (k : Nat) (v : VramWord) (s : State),
    s.LineReady → p.scanline < s.cfg.screenLines → (∀ j < pairCount p.heblnk p.hsblnk, pairFits s.cfg p j) →
      k < pairCount p.heblnk p.hsblnk →
        ∃ a b, exec (.vramWr (wordIndex (rowBase p.rowaddr) (p.coladdr + k)) v 3#2) s = .next a ∧
          exec (rasterOf p) a = .next b ∧
          Frame.read b.frame p.scanline (p.heblnk + 2 * k) = some (Config.palette.palPens s.pal (v.extractLsb' 0 8)) ∧
          Frame.read b.frame p.scanline (p.heblnk + 2 * k + 1) = some (Config.palette.palPens s.pal (v.extractLsb' 8 8))

/-! ### The sink and the driver's VRAM accesses -/

/-- R68: IRQ_ACK appends its event and changes nothing else, for either level and whatever was recorded before. -/
def Obligations.IrqAckOnlyRecords : Prop :=
  ∀ (level : BitVec 1) (s : State),
    s.fault = none → exec (.irqAck level) s = .next { s with events := s.events ++ [.irqAck level] }

/-- R69: VRAM_RD below the extent records and returns the word and changes nothing else; at or past it only the fault is
recorded. -/
def Obligations.VramRdReturnsTheWord : Prop :=
  ∀ (index : Nat) (s : State),
    s.fault = none →
      (index < s.cfg.vramWords →
        ∃ t, exec (.vramRd index) s = .next t ∧
          t = { s with events := s.events ++ [.vramRead index (Memory.readWord s.vram index)] } ∧
          t.lastReturned = some (.vramWord (Memory.readWord s.vram index))) ∧
      (s.cfg.vramWords ≤ index → exec (.vramRd index) s = .next { s with fault := some (.vramOutOfRange index) })

/-- R70: VRAM_WR below the extent replaces the bits its byte enables select, records its event, and changes no other word and
nothing else; a lane that is not enabled keeps its byte; at or past the extent only the fault is recorded. -/
def Obligations.VramWrMergesEnabledBytes : Prop :=
  ∀ (index : Nat) (value : VramWord) (be : BitVec 2) (s : State),
    s.fault = none →
      (index < s.cfg.vramWords →
        ∃ m, exec (.vramWr index value be) s =
            .next { s with vram := m, events := s.events ++ [.vramWrite index value be] } ∧
          (∀ mask : VramWord,
            mask = (if be.getLsbD 1 then 0xFF00#16 else 0#16) ||| (if be.getLsbD 0 then 0x00FF#16 else 0#16) →
              Memory.readWord m index = (Memory.readWord s.vram index &&& ~~~mask) ||| (value &&& mask)) ∧
          (∀ k, ¬ (k = laneKey index 0 ∧ be.getLsbD 0 = true) → ¬ (k = laneKey index 1 ∧ be.getLsbD 1 = true) →
            Memory.readLane m k = Memory.readLane s.vram k) ∧
          ∀ j, j ≠ index → Memory.readWord m j = Memory.readWord s.vram j) ∧
      (s.cfg.vramWords ≤ index →
        exec (.vramWr index value be) s = .next { s with fault := some (.vramOutOfRange index) })

/-- R69, R70, R36: what VRAM_WR leaves in a word, a VRAM_RD of it after any operations that are not VRAM_WR returns; here one
such operation between them. -/
def Obligations.VramRdReturnsTheLastWrite : Prop :=
  ∀ (index : Nat) (value : VramWord) (i : Instr) (s a b : State),
    s.fault = none → index < s.cfg.vramWords → (∀ j v be, i ≠ .vramWr j v be) →
      exec (.vramWr index value 3#2) s = .next a → exec i a = .next b → b.fault = none →
        ∃ c, exec (.vramRd index) b = .next c ∧ c.lastReturned = some (.vramWord value)

/-! ### Whole-machine rules -/

/-- R19: a step leaves the device's state alone, or is a PAL_RD's palRead or a PAL_WR's palWrite of it. -/
def Obligations.DeviceStateChangesOnlyThroughItsWindow : Prop :=
  ∀ s t : State,
    step s = .next t →
      t.pal = s.pal ∨
        (∃ r rest o, s.schedule = .issue r :: rest ∧ decode r = .ok (.palRd o) ∧
          t.pal = (Config.palette.palRead s.pal (translateOffset o)).2) ∨
        ∃ r rest o d, s.schedule = .issue r :: rest ∧ decode r = .ok (.palWr o d) ∧
          t.pal = Config.palette.palWrite s.pal (translateOffset o) d

/-- R36, R37: a step leaves every word of VRAM alone, but for the one word of a VRAM_WR it performs. -/
def Obligations.VramChangesOnlyByVramWr : Prop :=
  ∀ s t : State,
    step s = .next t →
      ∀ j, Memory.readWord t.vram j = Memory.readWord s.vram j ∨
        ∃ r rest v be, s.schedule = .issue r :: rest ∧ decode r = .ok (.vramWr j v be) ∧ j < s.cfg.vramWords ∧
          Memory.readWord t.vram j = mergeWord (Memory.readWord s.vram j) v be

/-- R37, R59, R64, R66: a step leaves every pixel alone, but for the two pixels of a pair when it carries on a RASTER_LINE
partly done (its move advances the line, or the driver is idle, log entry 7), and the pixels of its pairs when it performs a
RASTER_LINE under `line`. No other operation changes a pixel, also between two steps of a RASTER_LINE. -/
def Obligations.PixelsChangeOnlyByRasterLine : Prop :=
  ∀ s t : State,
    step s = .next t →
      ∀ m x, Frame.read t.frame m x = Frame.read s.frame m x ∨
        (∃ q, s.line = some q ∧ (s.schedule = [] ∨ ∃ rest, s.schedule = .advance :: rest) ∧ q.params.scanline = m ∧
          q.x < q.params.hsblnk ∧ (x = q.x ∨ x = q.x + 1)) ∨
        ∃ r rest p, s.schedule = .issue r :: rest ∧ decode r = .ok (rasterOf p) ∧ s.cfg.granularity = .line ∧
          p.scanline = m ∧ p.heblnk ≤ x ∧ x < p.heblnk + 2 * pairCount p.heblnk p.hsblnk

/-- R23, D18, R9: a step keeps the history and adds at most one event to it, and never changes the configuration. -/
def Obligations.HistoryOnlyGrows : Prop :=
  ∀ s t : State,
    step s = .next t →
      t.cfg = s.cfg ∧ (t.events = s.events ∨ ∃ e, t.events = s.events ++ [e])

/-- R73: once a fault is recorded no step and no operation is performed, so that it is never cleared; and the step that
records one changes neither VRAM nor the device and records no event. (How a recorded fault stops the run is log entry 10.) -/
def Obligations.FaultEndsTheRun : Prop :=
  (∀ (s : State) (f : Fault), s.fault = some f → step s = .fault f ∧ ∀ i, exec i s = .fault f) ∧
    (∀ s t : State, step s = .next t → s.fault = none) ∧
    ∀ (s t : State) (f : Fault),
      step s = .next t → t.fault = some f → t.vram = s.vram ∧ t.pal = s.pal ∧ t.events = s.events

/-- R44, R72, R74: a record of a reserved kind, whatever fields it holds, is refused with its fault and nothing is
performed. -/
def Obligations.ReservedKindsFault : Prop :=
  ∀ (r : OpRecord) (rest : List DriverMove) (s : State),
    s.fault = none → s.schedule = .issue r :: rest → r.kind = 0b110#3 ∨ r.kind = 0b111#3 →
      step s = .next { s with schedule := rest, fault := some (.reservedKind r.kind) }

/-- R6, R33 (the schedule is the model's form of the driver, log entry 6): a step whose move issues a record performs the operation it decodes to, in the state with that move taken off
the schedule. -/
def Obligations.StepPerformsTheIssuedOperation : Prop :=
  ∀ (r : OpRecord) (i : Instr) (rest : List DriverMove) (s : State),
    s.fault = none → s.schedule = .issue r :: rest → decode r = .ok i →
      step s = exec i { s with schedule := rest }

/-- R81 (the stop's name and what an idle driver does are the model's, log entry 7): with nothing more to issue the run ends,
but for a RASTER_LINE partly done, which goes on. -/
def Obligations.RunEndsWhenNothingIsIssued : Prop :=
  ∀ s : State,
    s.fault = none → s.schedule = [] →
      (s.line = none → step s = .refused .endOfRun) ∧
        ∀ q, s.line = some q → step s = .next (advanceLine Config.palette s)

/-- R24, R81: the launch state of any configuration and any launch arguments; the reset state is one of them (its arguments
are the model's choice, log entries 1, 3 and 4). -/
def Obligations.LaunchStateIsAsGiven : Prop :=
  (∀ (cfg : Config) (vram0 : Memory) (pal0 : PalState),
      (State.launch cfg vram0 pal0).vram = vram0 ∧ (State.launch cfg vram0 pal0).pal = pal0 ∧
        (∀ m x, Frame.read (State.launch cfg vram0 pal0).frame m x = none) ∧
        (State.launch cfg vram0 pal0).events = [] ∧ (State.launch cfg vram0 pal0).fault = none ∧
        (State.launch cfg vram0 pal0).line = none) ∧
    State.reset = State.launch Config.reference [] ⟨0⟩ ∧ State.reset.cfg.vramWords = 0x40000 ∧
    State.reset.cfg.granularity = .line

/-! ### Records and text -/

/-- R38, R39, R45: a record decodes to an operation exactly when it is, with its default byte enables, that operation's own
encoding: no field is dropped and none is invented. (That other records are refused, and the default, are the model's, log
entry 12.) -/
def Obligations.DecodeInvertsEncode : Prop :=
  ∀ (r : OpRecord) (i : Instr), decode r = .ok i ↔ r.withDefaults = encode i

/-- R38, R44, R45: the decoder accepts exactly the well-formed records (log entry 12). -/
def Obligations.DecodeAcceptsWellFormedRecords : Prop :=
  ∀ r : OpRecord, (∃ i, decode r = .ok i) ↔ r.withDefaults.wellFormed = true

/-- R39, with records written out in 95_test_vectors.md section 4: one of each kind decodes to the operation it stands for. -/
def Obligations.SpecRecordsDecode : Prop :=
  decode { kind := 0b000#3, offset := some 0xC000#16 } = .ok (.palRd 0xC000#16) ∧
    decode { kind := 0b001#3, offset := some 0x8000#16, data := some ⟨0x5A⟩ } = .ok (.palWr 0x8000#16 ⟨0x5A⟩) ∧
    decode { kind := 0b010#3, scanline := some 2, rowaddr := some 0x7FF, coladdr := some 0x2FF, heblnk := some 10,
             hsblnk := some 14 } = .ok (.rasterLine 2 0x7FF 0x2FF 10 14) ∧
    decode { kind := 0b011#3, level := some 1#1 } = .ok (.irqAck 1#1) ∧
    decode { kind := 0b100#3, index := some 1 } = .ok (.vramRd 1) ∧
    decode { kind := 0b101#3, index := some 0x3FF00, value := some 0x0500#16, be := some 0b10#2 } =
      .ok (.vramWr 0x3FF00 0x0500#16 0b10#2)

/-- R46: the pseudo-instructions expand to the lines the rule gives, a register index outside 0 to 7 is a syntax error, and
vram.wr without byte enables has both (log entry 15). -/
def Obligations.PseudoInstructionsExpand : Prop :=
  (∀ r : BitVec 3,
      AsmLine.expand (.palRdr r.toNat) = AsmLine.expand (.palRd (canon r).toNat) ∧
        ∀ d, AsmLine.expand (.palWrr r.toNat d) = AsmLine.expand (.palWr (canon r).toNat d)) ∧
    (∀ r, 7 < r → AsmLine.expand (.palRdr r) = none ∧ ∀ d, AsmLine.expand (.palWrr r d) = none) ∧
    (∀ index b, b ≤ 255 →
      AsmLine.expand (.vramWrl index b) = AsmLine.expand (.vramWr index b (some 0b01)) ∧
        AsmLine.expand (.vramWrh index b) = AsmLine.expand (.vramWr index (b <<< 8) (some 0b10))) ∧
    ∀ index v, AsmLine.expand (.vramWr index v none) = AsmLine.expand (.vramWr index v (some 0b11))

/-! ### Invariants -/

/-- R12, R20, R21: a launch state with canonical VRAM inside the extent meets the invariant, the reset state among them. -/
def Obligations.LaunchMeetsTheInvariant : Prop :=
  (∀ (cfg : Config) (vram0 : Memory) (pal0 : PalState),
      Memory.wf vram0 → Memory.within cfg.vramWords vram0 → (State.launch cfg vram0 pal0).Inv) ∧
    State.reset.Inv

/-- R12, R20, R21, R66: every step from a state that meets the invariant leaves a state that meets it. -/
def Obligations.StepKeepsTheInvariant : Prop :=
  ∀ s t : State, s.Inv → step s = .next t → t.Inv

/-- R83 (duty 7 in either of its forms, log entry 19): a driver that keeps its duties never faults: its state stays dutiful at every step, so no fault is ever recorded,
and no step answers one. -/
def Obligations.DutifulDriverNeverFaults : Prop :=
  ∀ s : State, s.Dutiful → (∀ f, step s ≠ .fault f) ∧ ∀ t, step s = .next t → t.Dutiful

/-- R83 (duty 7 in either of its forms, log entry 19), R71: each operation a dutiful driver issues is performed to a safe state; a RASTER_LINE when none is partly done. -/
def Obligations.DutifulOperationCompletes : Prop :=
  ∀ (r : OpRecord) (rest : List DriverMove) (s : State),
    s.Dutiful → s.schedule = .issue r :: rest → (s.line = none ∨ ∀ p, decode r ≠ .ok (rasterOf p)) →
      ∃ i t, decode r = .ok i ∧ exec i { s with schedule := rest } = .next t ∧ step s = .next t ∧ t.Safe
end

