-- ==== Sys2Proof/Laws/Cells.lean ====
section
/-! SUPPORT. The sparse lists: reading after a write, and the rising order of their keys. -/

namespace Sys2Proof.Machine

variable {α : Type}

@[simp] theorem Cells.find_insert_same (k : Nat) (v : α) (l : List (Nat × α)) :
    Cells.find k (Cells.insert k v l) = some v := by
  induction l with
  | nil => simp [Cells.insert, Cells.find]
  | cons c rest ih =>
    obtain ⟨j, u⟩ := c
    unfold Cells.insert
    split
    · simp [Cells.find]
    · split
      · simp [Cells.find]
      · next h => simp [Cells.find, h, ih]

@[simp] theorem Cells.find_insert_other {k k' : Nat} (h : k' ≠ k) (v : α) (l : List (Nat × α)) :
    Cells.find k' (Cells.insert k v l) = Cells.find k' l := by
  induction l with
  | nil => simp [Cells.insert, Cells.find, Ne.symm h]
  | cons c rest ih =>
    obtain ⟨j, u⟩ := c
    unfold Cells.insert
    split
    · simp [Cells.find, Ne.symm h]
    · split
      · next hj => subst hj; simp [Cells.find, Ne.symm h]
      · simp [Cells.find, ih]

@[simp] theorem Cells.find_erase_same (k : Nat) (l : List (Nat × α)) : Cells.find k (Cells.erase k l) = none := by
  induction l with
  | nil => rfl
  | cons c rest ih =>
    obtain ⟨j, u⟩ := c
    unfold Cells.erase
    split
    · exact ih
    · next h => simp [Cells.find, h, ih]

@[simp] theorem Cells.find_erase_other {k k' : Nat} (h : k' ≠ k) (l : List (Nat × α)) :
    Cells.find k' (Cells.erase k l) = Cells.find k' l := by
  induction l with
  | nil => rfl
  | cons c rest ih =>
    obtain ⟨j, u⟩ := c
    unfold Cells.erase
    split
    · next hj => subst hj; simp [Cells.find, ih, Ne.symm h]
    · simp [Cells.find, ih]

/-- What a list holds after an insertion: the new entry, and entries it held before. -/
theorem Cells.mem_insert {k : Nat} {v : α} {l : List (Nat × α)} {c : Nat × α} (h : c ∈ Cells.insert k v l) :
    c = (k, v) ∨ c ∈ l := by
  induction l with
  | nil => simpa [Cells.insert] using h
  | cons d rest ih =>
    obtain ⟨j, u⟩ := d
    unfold Cells.insert at h
    split at h
    · simpa using h
    · split at h
      · rcases List.mem_cons.mp h with h | h
        · exact .inl h
        · exact .inr (by simp [h])
      · rcases List.mem_cons.mp h with h | h
        · exact .inr (by simp [h])
        · rcases ih h with h | h
          · exact .inl h
          · exact .inr (by simp [h])

/-- Erasing only removes entries. -/
theorem Cells.mem_erase {k : Nat} {l : List (Nat × α)} {c : Nat × α} (h : c ∈ Cells.erase k l) : c ∈ l := by
  induction l with
  | nil => exact h
  | cons d rest ih =>
    obtain ⟨j, u⟩ := d
    unfold Cells.erase at h
    split at h
    · simp [ih h]
    · rcases List.mem_cons.mp h with h | h
      · simp [h]
      · simp [ih h]

/-- An entry that is found is in the list. -/
theorem Cells.mem_of_find {k : Nat} {v : α} {l : List (Nat × α)} (h : Cells.find k l = some v) : (k, v) ∈ l := by
  induction l with
  | nil => simp [Cells.find] at h
  | cons d rest ih =>
    obtain ⟨j, u⟩ := d
    unfold Cells.find at h
    split at h
    · next hj => subst hj; simp_all
    · simp [ih h]

theorem Cells.insert_rising {k : Nat} (v : α) {l : List (Nat × α)} (h : Cells.rising l) :
    Cells.rising (Cells.insert k v l) := by
  induction l with
  | nil => simp [Cells.insert]
  | cons d rest ih =>
    obtain ⟨j, u⟩ := d
    obtain ⟨hj, hrest⟩ := List.pairwise_cons.mp h
    unfold Cells.insert
    split
    · next hk =>
      refine List.pairwise_cons.mpr ⟨fun c hc => ?_, h⟩
      rcases List.mem_cons.mp hc with rfl | hc
      · exact hk
      · exact Nat.lt_trans hk (hj c hc)
    · split
      · next hjk => subst hjk; exact List.pairwise_cons.mpr ⟨hj, hrest⟩
      · next hk hjk =>
        refine List.pairwise_cons.mpr ⟨fun c hc => ?_, ih hrest⟩
        rcases Cells.mem_insert hc with rfl | hc
        · show j < k; omega
        · exact hj c hc

theorem Cells.erase_rising {k : Nat} {l : List (Nat × α)} (h : Cells.rising l) : Cells.rising (Cells.erase k l) := by
  induction l with
  | nil => exact h
  | cons d rest ih =>
    obtain ⟨j, u⟩ := d
    obtain ⟨hj, hrest⟩ := List.pairwise_cons.mp h
    unfold Cells.erase
    split
    · exact ih hrest
    · exact List.pairwise_cons.mpr ⟨fun c hc => hj c (Cells.mem_erase hc), ih hrest⟩

/-- Two lists with rising keys that find the same under every key are the same list. -/
theorem Cells.ext_of_rising {l m : List (Nat × α)} (hl : Cells.rising l) (hm : Cells.rising m)
    (h : ∀ k, Cells.find k l = Cells.find k m) : l = m := by
  have bound : ∀ {k : Nat} {l : List (Nat × α)}, (∀ c ∈ l, k < c.1) → Cells.find k l = none := by
    intro k l hb
    cases hf : Cells.find k l with
    | none => rfl
    | some v => exact absurd (hb _ (Cells.mem_of_find hf)) (Nat.lt_irrefl k)
  induction l generalizing m with
  | nil =>
    cases m with
    | nil => rfl
    | cons c rest => simpa [Cells.find] using h c.1
  | cons c rest ih =>
    obtain ⟨j, u⟩ := c
    obtain ⟨hj, hrest⟩ := List.pairwise_cons.mp hl
    cases m with
    | nil => simpa [Cells.find] using h j
    | cons d rest' =>
      obtain ⟨j', u'⟩ := d
      obtain ⟨hj', hrest'⟩ := List.pairwise_cons.mp hm
      have hjj : j = j' := by
        rcases Nat.lt_trichotomy j j' with hlt | heq | hlt
        · have := h j
          rw [bound (l := (j', u') :: rest')
            (fun c hc => by rcases List.mem_cons.mp hc with rfl | hc; exacts [hlt, Nat.lt_trans hlt (hj' c hc)])] at this
          simp [Cells.find] at this
        · exact heq
        · have := h j'
          rw [bound (l := (j, u) :: rest)
            (fun c hc => by rcases List.mem_cons.mp hc with rfl | hc; exacts [hlt, Nat.lt_trans hlt (hj c hc)])] at this
          simp [Cells.find] at this
      subst hjj
      have hu : u = u' := by simpa [Cells.find] using h j
      subst hu
      congr 1
      refine ih hrest hrest' fun k => ?_
      by_cases hk : k = j
      · subst hk
        rw [bound hj, bound hj']
      · simpa [Cells.find, Ne.symm hk] using h k

end Sys2Proof.Machine
end

