-- ==== Sys2Proof/Laws/Frame.lean ====
section
/-! SUPPORT. The output line buffers: reading a pixel after a write, and the canonical form. -/

namespace Sys2Proof.Machine

@[simp] theorem Frame.read_nil (n x : Nat) : Frame.read [] n x = none := rfl

@[simp] theorem Frame.read_write_same (f : Frame) (n x : Nat) (c : Color) : Frame.read (Frame.write f n x c) n x = some c := by
  simp [Frame.read, Frame.write, Frame.line]

/-- A pixel written leaves every other pixel alone. -/
theorem Frame.read_write_other {n m x y : Nat} (h : m ≠ n ∨ y ≠ x) (f : Frame) (c : Color) :
    Frame.read (Frame.write f n x c) m y = Frame.read f m y := by
  unfold Frame.read Frame.write Frame.line
  by_cases hm : m = n
  · subst hm
    have hy : y ≠ x := by simpa using h
    simp [hy]
  · simp [hm]

theorem Frame.read_write (f : Frame) (n x m y : Nat) (c : Color) :
    Frame.read (Frame.write f n x c) m y = if m = n ∧ y = x then some c else Frame.read f m y := by
  split
  · next h => obtain ⟨rfl, rfl⟩ := h; simp
  · next h => exact Frame.read_write_other (by tauto) f c

theorem Cells.insert_ne_nil {α : Type} (k : Nat) (v : α) (l : List (Nat × α)) : Cells.insert k v l ≠ [] := by
  intro h
  have := Cells.find_insert_same k v l
  rw [h] at this
  simp [Cells.find] at this

/-- A line that is found in a canonical frame has rising keys. -/
theorem Frame.line_rising {f : Frame} (h : Frame.wf f) (n : Nat) : Cells.rising (Frame.line f n) := by
  unfold Frame.line
  cases hf : Cells.find n f with
  | none => exact List.Pairwise.nil
  | some l => exact (h.2 _ (Cells.mem_of_find hf)).1

/-- Writing a pixel keeps the canonical form. -/
theorem Frame.write_wf {f : Frame} (h : Frame.wf f) (n x : Nat) (c : Color) : Frame.wf (Frame.write f n x c) := by
  refine ⟨Cells.insert_rising _ h.1, fun l hl => ?_⟩
  rcases Cells.mem_insert hl with rfl | hl
  · exact ⟨Cells.insert_rising c (Frame.line_rising h n), Cells.insert_ne_nil _ _ _⟩
  · exact h.2 l hl

/-- Writing a pixel of a buffer keeps every listed pixel inside its buffer. -/
theorem Frame.write_within {cfg : Config} {f : Frame} (h : Frame.within cfg f) {n x : Nat} (hn : n < cfg.screenLines)
    (hx : x < cfg.lineWidth) (c : Color) : Frame.within cfg (Frame.write f n x c) := by
  intro l hl
  rcases Cells.mem_insert hl with rfl | hl
  · refine ⟨hn, fun p hp => ?_⟩
    rcases Cells.mem_insert hp with rfl | hp
    · exact hx
    · unfold Frame.line at hp
      cases hf : Cells.find n f with
      | none => simp [hf] at hp
      | some l' =>
        rw [hf] at hp
        exact (h _ (Cells.mem_of_find hf)).2 p hp
  · exact h l hl

end Sys2Proof.Machine
end

