-- ==== Sys2Proof/Laws/Memory.lean ====
section
/-! SUPPORT. VRAM: reading after a write, by lane and by word; every operation keeps the canonical form and the extent; and
one lemma for each of the driver's accesses. -/

namespace Sys2Proof.Machine

@[simp] theorem Memory.readLane_nil (k : Nat) : Memory.readLane [] k = Memory.unlisted := rfl

@[simp] theorem Memory.readLane_writeLane_same (m : Memory) (k : Nat) (b : Byte) :
    Memory.readLane (Memory.writeLane m k b) k = b := by
  unfold Memory.readLane Memory.writeLane
  split <;> simp_all

@[simp] theorem Memory.readLane_writeLane_other {k k' : Nat} (h : k' ≠ k) (m : Memory) (b : Byte) :
    Memory.readLane (Memory.writeLane m k b) k' = Memory.readLane m k' := by
  unfold Memory.readLane Memory.writeLane
  split <;> simp [h]

theorem laneKey_inj {i j a b : Nat} (ha : a < 2) (hb : b < 2) (h : laneKey i a = laneKey j b) : i = j ∧ a = b := by
  unfold laneKey at h
  omega

/-- A word written reads back whole. -/
@[simp] theorem Memory.readWord_writeWord_same (m : Memory) (i : Nat) (w : VramWord) :
    Memory.readWord (Memory.writeWord m i w) i = w := by
  have h : laneKey i 0 ≠ laneKey i 1 := by simp [laneKey]
  unfold Memory.readWord Memory.writeWord
  simp only [readLane_writeLane_same, readLane_writeLane_other h]
  ext n hn
  simp only [BitVec.getElem_append, BitVec.getElem_extractLsb']
  split
  · simp [BitVec.getLsbD_eq_getElem hn]
  · rw [BitVec.getLsbD_eq_getElem (by omega)]; congr 1; omega

/-- The bits of a word, lane by lane (R25, R26). -/
theorem Memory.getLsbD_readWord (m : Memory) (i n : Nat) :
    (Memory.readWord m i).getLsbD n =
      if n < 8 then (Memory.readLane m (laneKey i 0)).getLsbD n else (Memory.readLane m (laneKey i 1)).getLsbD (n - 8) := by
  unfold Memory.readWord
  refine (BitVec.getLsbD_append (x := Memory.readLane m (laneKey i 1)) (y := Memory.readLane m (laneKey i 0))).trans ?_
  split <;> simp_all

/-- The byte enables' mask, bit by bit (R70). -/
theorem byteMask_getLsbD (be : BitVec 2) {n : Nat} (h : n < 16) : (byteMask be).getLsbD n = be.getLsbD (n / 8) := by
  revert be n
  decide

/-- A byte-enabled write, bit by bit (R70). -/
theorem mergeWord_getLsbD (old value : VramWord) (be : BitVec 2) {n : Nat} (h : n < 16) :
    (mergeWord old value be).getLsbD n = if be.getLsbD (n / 8) then value.getLsbD n else old.getLsbD n := by
  unfold mergeWord
  simp only [BitVec.getLsbD_or, BitVec.getLsbD_and, BitVec.getLsbD_not, byteMask_getLsbD be h, h]
  cases be.getLsbD (n / 8) <;> simp

/-- A lane of a word written. -/
theorem Memory.readLane_writeWord (m : Memory) (i : Nat) (w : VramWord) (k : Nat) :
    Memory.readLane (Memory.writeWord m i w) k =
      if k = laneKey i 0 then w.extractLsb' 0 8 else if k = laneKey i 1 then w.extractLsb' 8 8
      else Memory.readLane m k := by
  have h : laneKey i 0 ≠ laneKey i 1 := by simp [laneKey]
  unfold Memory.writeWord
  by_cases h1 : k = laneKey i 1
  · subst h1; simp [h.symm]
  · by_cases h0 : k = laneKey i 0
    · subst h0; simp [h]
    · simp [h0, h1]

/-- A word written leaves every other word alone. -/
theorem Memory.readWord_writeWord_other {i j : Nat} (h : j ≠ i) (m : Memory) (w : VramWord) :
    Memory.readWord (Memory.writeWord m i w) j = Memory.readWord m j := by
  have e : ∀ a b, a < 2 → b < 2 → laneKey j a ≠ laneKey i b := fun a b ha hb he => h (laneKey_inj ha hb he).1
  simp [Memory.readWord, Memory.readLane_writeWord, e]

theorem Memory.writeLane_wf {m : Memory} (h : Memory.wf m) (k : Nat) (b : Byte) : Memory.wf (Memory.writeLane m k b) := by
  unfold Memory.writeLane
  split
  · exact ⟨Cells.erase_rising h.1, fun c hc => h.2 c (Cells.mem_erase hc)⟩
  · next hb =>
    refine ⟨Cells.insert_rising b h.1, fun c hc => ?_⟩
    rcases Cells.mem_insert hc with rfl | hc
    · exact hb
    · exact h.2 c hc

/-- Every memory operation keeps the canonical form. -/
theorem Memory.writeWord_wf {m : Memory} (h : Memory.wf m) (i : Nat) (w : VramWord) : Memory.wf (Memory.writeWord m i w) :=
  Memory.writeLane_wf (Memory.writeLane_wf h _ _) _ _

theorem Memory.writeLane_within {n : Nat} {m : Memory} (h : Memory.within n m) {k : Nat} (hk : k < 2 * n) (b : Byte) :
    Memory.within n (Memory.writeLane m k b) := by
  unfold Memory.writeLane
  split
  · exact fun c hc => h c (Cells.mem_erase hc)
  · intro c hc
    rcases Cells.mem_insert hc with rfl | hc
    · exact hk
    · exact h c hc

/-- A word written below the extent leaves every listed lane inside it. -/
theorem Memory.writeWord_within {n : Nat} {m : Memory} (h : Memory.within n m) {i : Nat} (hi : i < n) (w : VramWord) :
    Memory.within n (Memory.writeWord m i w) :=
  Memory.writeLane_within (Memory.writeLane_within h (by unfold laneKey; omega) _) (by unfold laneKey; omega) _

/-- Equal reads of two memories in canonical form make them equal data. -/
theorem Memory.ext_of_wf {m n : Memory} (hm : Memory.wf m) (hn : Memory.wf n)
    (h : ∀ k, Memory.readLane m k = Memory.readLane n k) : m = n := by
  refine Cells.ext_of_rising hm.1 hn.1 fun k => ?_
  have hk := h k
  unfold Memory.readLane at hk
  cases hf : Cells.find k m with
  | none =>
    cases hg : Cells.find k n with
    | none => rfl
    | some v =>
      rw [hf, hg] at hk
      exact absurd hk.symm (hn.2 _ (Cells.mem_of_find hg))
  | some u =>
    cases hg : Cells.find k n with
    | none =>
      rw [hf, hg] at hk
      exact absurd hk (hm.2 _ (Cells.mem_of_find hf))
    | some v =>
      rw [hf, hg] at hk
      exact congrArg some hk

/-- The memory after reset is in canonical form. -/
theorem State.reset_vram_wf : Memory.wf State.reset.vram := ⟨List.Pairwise.nil, by simp [State.reset, State.launch]⟩

/-! ### The driver's accesses -/

/-- A range-checked access: past the extent only the fault is recorded, below it the access is made. -/
theorem whenBacked_cases (index : Nat) (k : State → State) (s : State) :
    (s.cfg.vramWords ≤ index ∧ whenBacked index k s = s.raise (.vramOutOfRange index)) ∨
      (index < s.cfg.vramWords ∧ whenBacked index k s = k s) := by
  unfold whenBacked
  by_cases h : s.cfg.vramWords ≤ index
  · exact .inl ⟨h, if_pos h⟩
  · exact .inr ⟨by omega, if_neg h⟩

end Sys2Proof.Machine
end

