-- ==== Sys2Proof/Laws/PerInstr.lean ====
section
/-! SUPPORT. Statements made of every operation, one lemma per constructor. -/

namespace Sys2Proof.Laws.RecordFields

/-- The operation's record is well formed: its kind code is not reserved, and it holds the fields of its kind and no other
(R38, R39, R45). -/
def Statement (i : Instr) : Prop :=
  (encode i).wellFormed = true

theorem palRd (offset : Offset) : Statement (.palRd offset) := rfl

theorem palWr (offset : Offset) (data : PalData) : Statement (.palWr offset data) := rfl

theorem rasterLine (scanline rowaddr coladdr heblnk hsblnk : Nat) :
    Statement (.rasterLine scanline rowaddr coladdr heblnk hsblnk) := rfl

theorem irqAck (level : BitVec 1) : Statement (.irqAck level) := rfl

theorem vramRd (index : Nat) : Statement (.vramRd index) := rfl

theorem vramWr (index : Nat) (value : VramWord) (be : BitVec 2) : Statement (.vramWr index value be) := rfl

end Sys2Proof.Laws.RecordFields
end

