-- ==== Sys2Proof/Laws/State.lean ====
section
/-! SUPPORT. What each update of the state leaves in each field, and what the launch state holds: one lemma per field per
update, so that no later proof unfolds a record update. -/

namespace Sys2Proof.Machine

/-! ### State.setVram -/

@[simp] theorem State.setVram_cfg (s : State) (m : Memory) : (s.setVram m).cfg = s.cfg := rfl
@[simp] theorem State.setVram_vram (s : State) (m : Memory) : (s.setVram m).vram = m := rfl
@[simp] theorem State.setVram_pal (s : State) (m : Memory) : (s.setVram m).pal = s.pal := rfl
@[simp] theorem State.setVram_frame (s : State) (m : Memory) : (s.setVram m).frame = s.frame := rfl
@[simp] theorem State.setVram_line (s : State) (m : Memory) : (s.setVram m).line = s.line := rfl
@[simp] theorem State.setVram_schedule (s : State) (m : Memory) : (s.setVram m).schedule = s.schedule := rfl
@[simp] theorem State.setVram_events (s : State) (m : Memory) : (s.setVram m).events = s.events := rfl
@[simp] theorem State.setVram_fault (s : State) (m : Memory) : (s.setVram m).fault = s.fault := rfl

/-! ### State.setPal -/

@[simp] theorem State.setPal_cfg (s : State) (p : PalState) : (s.setPal p).cfg = s.cfg := rfl
@[simp] theorem State.setPal_vram (s : State) (p : PalState) : (s.setPal p).vram = s.vram := rfl
@[simp] theorem State.setPal_pal (s : State) (p : PalState) : (s.setPal p).pal = p := rfl
@[simp] theorem State.setPal_frame (s : State) (p : PalState) : (s.setPal p).frame = s.frame := rfl
@[simp] theorem State.setPal_line (s : State) (p : PalState) : (s.setPal p).line = s.line := rfl
@[simp] theorem State.setPal_schedule (s : State) (p : PalState) : (s.setPal p).schedule = s.schedule := rfl
@[simp] theorem State.setPal_events (s : State) (p : PalState) : (s.setPal p).events = s.events := rfl
@[simp] theorem State.setPal_fault (s : State) (p : PalState) : (s.setPal p).fault = s.fault := rfl

/-! ### State.setFrame -/

@[simp] theorem State.setFrame_cfg (s : State) (f : Frame) : (s.setFrame f).cfg = s.cfg := rfl
@[simp] theorem State.setFrame_vram (s : State) (f : Frame) : (s.setFrame f).vram = s.vram := rfl
@[simp] theorem State.setFrame_pal (s : State) (f : Frame) : (s.setFrame f).pal = s.pal := rfl
@[simp] theorem State.setFrame_frame (s : State) (f : Frame) : (s.setFrame f).frame = f := rfl
@[simp] theorem State.setFrame_line (s : State) (f : Frame) : (s.setFrame f).line = s.line := rfl
@[simp] theorem State.setFrame_schedule (s : State) (f : Frame) : (s.setFrame f).schedule = s.schedule := rfl
@[simp] theorem State.setFrame_events (s : State) (f : Frame) : (s.setFrame f).events = s.events := rfl
@[simp] theorem State.setFrame_fault (s : State) (f : Frame) : (s.setFrame f).fault = s.fault := rfl

/-! ### State.setLine -/

@[simp] theorem State.setLine_cfg (s : State) (l : Option LineProgress) : (s.setLine l).cfg = s.cfg := rfl
@[simp] theorem State.setLine_vram (s : State) (l : Option LineProgress) : (s.setLine l).vram = s.vram := rfl
@[simp] theorem State.setLine_pal (s : State) (l : Option LineProgress) : (s.setLine l).pal = s.pal := rfl
@[simp] theorem State.setLine_frame (s : State) (l : Option LineProgress) : (s.setLine l).frame = s.frame := rfl
@[simp] theorem State.setLine_line (s : State) (l : Option LineProgress) : (s.setLine l).line = l := rfl
@[simp] theorem State.setLine_schedule (s : State) (l : Option LineProgress) : (s.setLine l).schedule = s.schedule := rfl
@[simp] theorem State.setLine_events (s : State) (l : Option LineProgress) : (s.setLine l).events = s.events := rfl
@[simp] theorem State.setLine_fault (s : State) (l : Option LineProgress) : (s.setLine l).fault = s.fault := rfl

/-! ### State.setSchedule -/

@[simp] theorem State.setSchedule_cfg (s : State) (q : List DriverMove) : (s.setSchedule q).cfg = s.cfg := rfl
@[simp] theorem State.setSchedule_vram (s : State) (q : List DriverMove) : (s.setSchedule q).vram = s.vram := rfl
@[simp] theorem State.setSchedule_pal (s : State) (q : List DriverMove) : (s.setSchedule q).pal = s.pal := rfl
@[simp] theorem State.setSchedule_frame (s : State) (q : List DriverMove) : (s.setSchedule q).frame = s.frame := rfl
@[simp] theorem State.setSchedule_line (s : State) (q : List DriverMove) : (s.setSchedule q).line = s.line := rfl
@[simp] theorem State.setSchedule_schedule (s : State) (q : List DriverMove) : (s.setSchedule q).schedule = q := rfl
@[simp] theorem State.setSchedule_events (s : State) (q : List DriverMove) : (s.setSchedule q).events = s.events := rfl
@[simp] theorem State.setSchedule_fault (s : State) (q : List DriverMove) : (s.setSchedule q).fault = s.fault := rfl

/-! ### State.emit -/

@[simp] theorem State.emit_cfg (s : State) (e : Event) : (s.emit e).cfg = s.cfg := rfl
@[simp] theorem State.emit_vram (s : State) (e : Event) : (s.emit e).vram = s.vram := rfl
@[simp] theorem State.emit_pal (s : State) (e : Event) : (s.emit e).pal = s.pal := rfl
@[simp] theorem State.emit_frame (s : State) (e : Event) : (s.emit e).frame = s.frame := rfl
@[simp] theorem State.emit_line (s : State) (e : Event) : (s.emit e).line = s.line := rfl
@[simp] theorem State.emit_schedule (s : State) (e : Event) : (s.emit e).schedule = s.schedule := rfl
@[simp] theorem State.emit_events (s : State) (e : Event) : (s.emit e).events = s.events ++ [e] := rfl
@[simp] theorem State.emit_fault (s : State) (e : Event) : (s.emit e).fault = s.fault := rfl

/-! ### State.raise -/

@[simp] theorem State.raise_cfg (s : State) (f : Fault) : (s.raise f).cfg = s.cfg := rfl
@[simp] theorem State.raise_vram (s : State) (f : Fault) : (s.raise f).vram = s.vram := rfl
@[simp] theorem State.raise_pal (s : State) (f : Fault) : (s.raise f).pal = s.pal := rfl
@[simp] theorem State.raise_frame (s : State) (f : Fault) : (s.raise f).frame = s.frame := rfl
@[simp] theorem State.raise_line (s : State) (f : Fault) : (s.raise f).line = s.line := rfl
@[simp] theorem State.raise_schedule (s : State) (f : Fault) : (s.raise f).schedule = s.schedule := rfl
@[simp] theorem State.raise_events (s : State) (f : Fault) : (s.raise f).events = s.events := rfl
@[simp] theorem State.raise_fault (s : State) (f : Fault) : (s.raise f).fault = some f := rfl

/-! ### State.launch -/

@[simp] theorem State.launch_cfg (cfg : Config) (m : Memory) (p : PalState) : (State.launch cfg m p).cfg = cfg := rfl
@[simp] theorem State.launch_vram (cfg : Config) (m : Memory) (p : PalState) : (State.launch cfg m p).vram = m := rfl
@[simp] theorem State.launch_pal (cfg : Config) (m : Memory) (p : PalState) : (State.launch cfg m p).pal = p := rfl
@[simp] theorem State.launch_frame (cfg : Config) (m : Memory) (p : PalState) : (State.launch cfg m p).frame = [] := rfl
@[simp] theorem State.launch_line (cfg : Config) (m : Memory) (p : PalState) : (State.launch cfg m p).line = none := rfl
@[simp] theorem State.launch_schedule (cfg : Config) (m : Memory) (p : PalState) : (State.launch cfg m p).schedule = [] := rfl
@[simp] theorem State.launch_events (cfg : Config) (m : Memory) (p : PalState) : (State.launch cfg m p).events = [] := rfl
@[simp] theorem State.launch_fault (cfg : Config) (m : Memory) (p : PalState) : (State.launch cfg m p).fault = none := rfl

/-! ### Guards -/

/-- A guarded operation answers a next state exactly when no fault is recorded and the operation does. -/
theorem whenRunning_eq_next {s t : State} {k : Host.Outcome State Fault Refusal} :
    whenRunning s k = .next t ↔ s.fault = none ∧ k = .next t := by
  unfold whenRunning
  cases s.fault <;> simp

@[simp] theorem whenRunning_of_none {s : State} {k : Host.Outcome State Fault Refusal} (h : s.fault = none) :
    whenRunning s k = k := by
  simp [whenRunning, h]

theorem whenRunning_of_some {s : State} {k : Host.Outcome State Fault Refusal} {f : Fault} (h : s.fault = some f) :
    whenRunning s k = .fault f := by
  simp [whenRunning, h]

end Sys2Proof.Machine
end

