-- ==== Sys2Proof/Laws/Raster.lean ====
section
/-! SUPPORT. The rasterizer's shared steps: everything a pair step and a step of the line can do, and what a run of pair
steps leaves when none of them faults. -/

namespace Sys2Proof.Machine

@[simp] theorem abandonLine_line (f : Fault) (s : State) : (abandonLine f s).line = none := rfl
@[simp] theorem abandonLine_fault (f : Fault) (s : State) : (abandonLine f s).fault = some f := rfl
@[simp] theorem abandonLine_frame (f : Fault) (s : State) : (abandonLine f s).frame = s.frame := rfl

/-- Everything a first step can do (R63, R66). -/
theorem startLine_cases (p : RasterParams) (s : State) :
    (s.cfg.screenLines ≤ p.scanline ∧ startLine p s = s.raise (.scanlineOutOfRange p.scanline)) ∨
      (p.scanline < s.cfg.screenLines ∧
        startLine p s =
          s.setLine (some { params := p, base := rowBase p.rowaddr, cursor := p.coladdr, x := p.heblnk })) := by
  unfold startLine
  by_cases h : s.cfg.screenLines ≤ p.scanline
  · exact .inl ⟨h, if_pos h⟩
  · exact .inr ⟨by omega, if_neg h⟩

/-- Everything a pair step can do (R57), in the order of its checks. -/
theorem pairStep_cases (dev : PaletteDevice) (q : LineProgress) (s : State) :
    (s.cfg.vramWords ≤ wordIndex q.base q.cursor ∧
        pairStep dev q s = abandonLine (.vramOutOfRange (wordIndex q.base q.cursor)) s) ∨
      (wordIndex q.base q.cursor < s.cfg.vramWords ∧ s.cfg.lineWidth ≤ q.x ∧
        pairStep dev q s = abandonLine (.lineBufferOverflow q.params.scanline q.x) s) ∨
      (wordIndex q.base q.cursor < s.cfg.vramWords ∧ q.x < s.cfg.lineWidth ∧ s.cfg.lineWidth ≤ q.x + 1 ∧
        pairStep dev q s =
          abandonLine (.lineBufferOverflow q.params.scanline (q.x + 1))
            (s.setFrame (Frame.write s.frame q.params.scanline q.x
              (dev.palPens s.pal (penFirst (Memory.readWord s.vram (wordIndex q.base q.cursor))))))) ∨
      (wordIndex q.base q.cursor < s.cfg.vramWords ∧ q.x + 1 < s.cfg.lineWidth ∧
        pairStep dev q s =
          (s.setFrame
              (Frame.write
                (Frame.write s.frame q.params.scanline q.x
                  (dev.palPens s.pal (penFirst (Memory.readWord s.vram (wordIndex q.base q.cursor)))))
                q.params.scanline (q.x + 1)
                (dev.palPens s.pal (penSecond (Memory.readWord s.vram (wordIndex q.base q.cursor)))))).setLine
            (some { q with cursor := q.cursor + 1, x := q.x + 2 })) := by
  by_cases hv : s.cfg.vramWords ≤ wordIndex q.base q.cursor
  · exact .inl ⟨hv, by simp [pairStep, hv]⟩
  · by_cases h0 : s.cfg.lineWidth ≤ q.x
    · exact .inr (.inl ⟨by omega, h0, by simp [pairStep, hv, h0]⟩)
    · by_cases h1 : s.cfg.lineWidth ≤ q.x + 1
      · exact .inr (.inr (.inl ⟨by omega, by omega, h1, by simp [pairStep, hv, h0, h1]⟩))
      · exact .inr (.inr (.inr ⟨by omega, by omega, by simp only [pairStep, hv, h0, h1, if_false]; rfl⟩))

/-- Everything a step of the line partly done can do. -/
theorem advanceLine_cases (dev : PaletteDevice) (s : State) :
    (s.line = none ∧ advanceLine dev s = s) ∨
      (∃ q, s.line = some q ∧ q.x < q.params.hsblnk ∧ advanceLine dev s = pairStep dev q s) ∨
      (∃ q, s.line = some q ∧ q.params.hsblnk ≤ q.x ∧ advanceLine dev s = finishLine q s) := by
  cases h : s.line with
  | none => exact .inl ⟨rfl, by simp [advanceLine, h]⟩
  | some q =>
    by_cases hx : q.x < q.params.hsblnk
    · exact .inr (.inl ⟨q, rfl, hx, by simp [advanceLine, h, hx]⟩)
    · exact .inr (.inr ⟨q, rfl, by omega, by simp [advanceLine, h, hx]⟩)

theorem advanceLine_none {dev : PaletteDevice} {s : State} (h : s.line = none) : advanceLine dev s = s := by
  simp [advanceLine, h]

theorem runLine_none {dev : PaletteDevice} {s : State} (h : s.line = none) (n : Nat) : runLine dev n s = s := by
  induction n with
  | zero => rfl
  | succ n ih => rw [runLine, advanceLine_none h, ih]

theorem runLine_add (dev : PaletteDevice) (m n : Nat) (s : State) :
    runLine dev (m + n) s = runLine dev n (runLine dev m s) := by
  induction m generalizing s with
  | zero => simp [runLine]
  | succ m ih => rw [Nat.add_right_comm, runLine, runLine, ih]

/-- What every step of a line keeps: a property that pair steps and the final step keep holds along a run of them. -/
theorem runLine_keeps {dev : PaletteDevice} {P : State → Prop} (h : ∀ s, P s → P (advanceLine dev s)) (n : Nat) {s : State}
    (hs : P s) : P (runLine dev n s) := by
  induction n generalizing s with
  | zero => exact hs
  | succ n ih => exact ih (h s hs)

/-- A run of n pair steps of a line, none of which faults: the cursor and x have moved on, and the n pairs are drawn. -/
theorem runLine_pairs (dev : PaletteDevice) (n : Nat) {s : State} {q : LineProgress} (hq : s.line = some q)
    (h : ∀ k < n, q.x + 2 * k < q.params.hsblnk ∧ wordIndex q.base (q.cursor + k) < s.cfg.vramWords ∧
      q.x + 2 * k + 1 < s.cfg.lineWidth) :
    ∃ f, runLine dev n s = (s.setFrame f).setLine (some { q with cursor := q.cursor + n, x := q.x + 2 * n }) ∧
      ∀ m x, Frame.read f m x =
        if m = q.params.scanline ∧ q.x ≤ x ∧ x < q.x + 2 * n then
          some (dev.palPens s.pal (linePen s.vram q.base q.cursor (x - q.x)))
        else Frame.read s.frame m x := by
  induction n with
  | zero =>
    refine ⟨s.frame, ?_, fun m x => ?_⟩
    · simp only [runLine, State.setFrame, State.setLine, Nat.add_zero, Nat.mul_zero, ← hq]
    · rw [if_neg (by omega)]
  | succ n ih =>
    obtain ⟨f, hf, hread⟩ := ih fun k hk => h k (by omega)
    obtain ⟨hx, hv, hw⟩ := h n (by omega)
    set q' : LineProgress := { q with cursor := q.cursor + n, x := q.x + 2 * n } with hq'
    set w := Memory.readWord s.vram (wordIndex q.base (q.cursor + n)) with hwdef
    refine ⟨Frame.write (Frame.write f q.params.scanline (q.x + 2 * n) (dev.palPens s.pal (penFirst w)))
      q.params.scanline (q.x + 2 * n + 1) (dev.palPens s.pal (penSecond w)), ?_, fun m x => ?_⟩
    · rw [runLine_add, hf, runLine, runLine, advanceLine]
      simp only [State.setLine_line, hq', if_pos hx]
      rcases pairStep_cases dev q' ((s.setFrame f).setLine (some q')) with hc | hc | hc | hc
      · exact absurd hc.1 (by simp [hq']; omega)
      · exact absurd hc.2.1 (by simp [hq']; omega)
      · exact absurd hc.2.2.1 (by simp [hq']; omega)
      · rw [hc.2.2]
        rfl
    · rw [Frame.read_write, Frame.read_write, hread]
      by_cases hm : m = q.params.scanline
      · subst hm
        by_cases h1 : x = q.x + 2 * n + 1
        · subst h1
          have e : (q.x + 2 * n + 1 - q.x) = 2 * n + 1 := by omega
          have e1 : (2 * n + 1) / 2 = n := by omega
          have e2 : (2 * n + 1) % 2 ≠ 0 := by omega
          rw [if_pos ⟨rfl, rfl⟩, if_pos ⟨rfl, by omega, by omega⟩]
          simp only [linePen, e, e1, if_neg e2, hwdef]
        · rw [if_neg (fun c => h1 c.2)]
          by_cases h0 : x = q.x + 2 * n
          · subst h0
            have e : (q.x + 2 * n - q.x) = 2 * n := by omega
            have e1 : (2 * n) / 2 = n := by omega
            have e2 : (2 * n) % 2 = 0 := by omega
            rw [if_pos ⟨rfl, rfl⟩, if_pos ⟨rfl, by omega, by omega⟩]
            simp only [linePen, e, e1, if_pos e2, hwdef]
          · rw [if_neg (fun c => h0 c.2)]
            by_cases hin : q.x ≤ x ∧ x < q.x + 2 * n
            · rw [if_pos ⟨rfl, hin⟩, if_pos ⟨rfl, by omega, by omega⟩]
            · rw [if_neg (fun c => hin c.2), if_neg (fun c => hin ⟨c.2.1, by omega⟩)]
      · rw [if_neg (fun c => hm c.1), if_neg (fun c => hm c.1), if_neg (fun c => hm c.1), if_neg (fun c => hm c.1)]

/-! ### What the steps of a line leave alone (R64) -/

theorem startLine_keeps (p : RasterParams) (s : State) :
    (startLine p s).cfg = s.cfg ∧ (startLine p s).vram = s.vram ∧ (startLine p s).pal = s.pal ∧
      (startLine p s).frame = s.frame ∧ (startLine p s).schedule = s.schedule ∧ (startLine p s).events = s.events := by
  rcases startLine_cases p s with ⟨-, h⟩ | ⟨-, h⟩ <;> simp [h]

theorem pairStep_keeps (dev : PaletteDevice) (q : LineProgress) (s : State) :
    (pairStep dev q s).cfg = s.cfg ∧ (pairStep dev q s).vram = s.vram ∧ (pairStep dev q s).pal = s.pal ∧
      (pairStep dev q s).schedule = s.schedule ∧ (pairStep dev q s).events = s.events := by
  rcases pairStep_cases dev q s with ⟨-, h⟩ | ⟨-, -, h⟩ | ⟨-, -, -, h⟩ | ⟨-, -, h⟩ <;> simp [h, abandonLine]

/-- A pair step writes no pixel but its own two (R57). -/
theorem pairStep_read_other (dev : PaletteDevice) (q : LineProgress) (s : State) {m x : Nat}
    (h : m ≠ q.params.scanline ∨ (x ≠ q.x ∧ x ≠ q.x + 1)) :
    Frame.read (pairStep dev q s).frame m x = Frame.read s.frame m x := by
  have h0 : m ≠ q.params.scanline ∨ x ≠ q.x := by tauto
  have h1 : m ≠ q.params.scanline ∨ x ≠ q.x + 1 := by tauto
  rcases pairStep_cases dev q s with ⟨-, e⟩ | ⟨-, -, e⟩ | ⟨-, -, -, e⟩ | ⟨-, -, e⟩
  · simp [e]
  · simp [e]
  · simp [e, Frame.read_write_other h0]
  · simp [e, Frame.read_write_other h0, Frame.read_write_other h1]

/-- A pair step leaves its line either moved on by one pair or ended by a fault. -/
theorem pairStep_line (dev : PaletteDevice) (q : LineProgress) (s : State) :
    ((pairStep dev q s).line = none ∧ ∃ f, (pairStep dev q s).fault = some f) ∨
      ((pairStep dev q s).line = some { q with cursor := q.cursor + 1, x := q.x + 2 } ∧
        (pairStep dev q s).fault = s.fault) := by
  rcases pairStep_cases dev q s with ⟨-, e⟩ | ⟨-, -, e⟩ | ⟨-, -, -, e⟩ | ⟨-, -, e⟩ <;> simp [e]

theorem advanceLine_keeps (dev : PaletteDevice) (s : State) :
    (advanceLine dev s).cfg = s.cfg ∧ (advanceLine dev s).vram = s.vram ∧ (advanceLine dev s).pal = s.pal ∧
      (advanceLine dev s).schedule = s.schedule := by
  rcases advanceLine_cases dev s with ⟨-, h⟩ | ⟨q, -, -, h⟩ | ⟨q, -, -, h⟩
  · simp [h]
  · have := pairStep_keeps dev q s
    rw [h]; exact ⟨this.1, this.2.1, this.2.2.1, this.2.2.2.1⟩
  · simp [h, finishLine]

/-- The only pixels a step of the line partly done can change are the two of its next pair (R57). -/
theorem advanceLine_read (dev : PaletteDevice) (s : State) (m x : Nat) :
    Frame.read (advanceLine dev s).frame m x = Frame.read s.frame m x ∨
      ∃ q, s.line = some q ∧ q.params.scanline = m ∧ q.x < q.params.hsblnk ∧ (x = q.x ∨ x = q.x + 1) := by
  rcases advanceLine_cases dev s with ⟨_, e⟩ | ⟨q, hq, hx, e⟩ | ⟨q, hq, _, e⟩
  · exact .inl (by rw [e])
  · by_cases h : q.params.scanline = m ∧ (x = q.x ∨ x = q.x + 1)
    · exact .inr ⟨q, hq, h.1, hx, h.2⟩
    · exact .inl (by rw [e]; exact pairStep_read_other dev q s (by omega))
  · exact .inl (by rw [e]; rfl)

theorem runLine_keeps_fields (dev : PaletteDevice) (n : Nat) (s : State) :
    (runLine dev n s).cfg = s.cfg ∧ (runLine dev n s).vram = s.vram ∧ (runLine dev n s).pal = s.pal ∧
      (runLine dev n s).schedule = s.schedule :=
  runLine_keeps
    (P := fun t => t.cfg = s.cfg ∧ t.vram = s.vram ∧ t.pal = s.pal ∧ t.schedule = s.schedule)
    (fun t ht => by have := advanceLine_keeps dev t; simp_all) n ⟨rfl, rfl, rfl, rfl⟩

end Sys2Proof.Machine
end

