-- ==== Sys2Proof/Laws/Step.lean ====
section
/-! SUPPORT. Everything a step of the machine can do, said once; and the machine as the machine on any device (rule R19)
with its own. -/

namespace Sys2Proof.Machine

/-- exec is execOn with the machine's own device. -/
theorem exec_eq_execOn (i : Instr) (s : State) : exec i s = execOn Config.palette i s := by
  cases i <;> rfl

/-- step is stepOn with the machine's own device. -/
theorem step_eq_stepOn (s : State) : step s = stepOn Config.palette s := rfl

/-- One more step of a run of any machine. -/
theorem run_succ_of_next {M : Host.Core} {s t : M.State} (h : M.step s = .next t) (k : Nat) :
    M.run (k + 1) s = M.run k t := by
  have e : M.run (k + 1) s = (match M.step s with
    | .next s' => M.run k s'
    | .fault r => .fault r
    | .refused r => .refused r) := rfl
  rw [e, h]

/-- One more step of a run of the machine. -/
theorem core_run_of_next {k : Nat} {s t : State} (h : step s = .next t) :
    Host.Core.run core (k + 1) s = Host.Core.run core k t :=
  run_succ_of_next (M := core) h k

/-- A recorded fault stops every operation (R73). -/
theorem execOn_of_fault {dev : PaletteDevice} {i : Instr} {s : State} {f : Fault} (h : s.fault = some f) :
    execOn dev i s = .fault f := by
  cases i <;> exact whenRunning_of_some h

/-- Everything an operation can do when it answers a next state. -/
theorem execOn_cases {dev : PaletteDevice} {i : Instr} {s t : State} (h : execOn dev i s = .next t) :
    s.fault = none ∧
      match i with
      | .palRd offset => t = palReadOn dev offset s
      | .palWr offset data => t = palWriteOn dev offset data s
      | .rasterLine scanline rowaddr coladdr heblnk hsblnk =>
        s.line = none ∧
          ((s.cfg.granularity = .line ∧
              t = runLine dev (pairCount heblnk hsblnk + 1) (startLine ⟨scanline, rowaddr, coladdr, heblnk, hsblnk⟩ s)) ∨
            (s.cfg.granularity = .pair ∧ t = startLine ⟨scanline, rowaddr, coladdr, heblnk, hsblnk⟩ s))
      | .irqAck level => t = s.emit (.irqAck level)
      | .vramRd index => t = whenBacked index (vramRead index) s
      | .vramWr index value be => t = whenBacked index (vramWrite index value be) s := by
  cases i with
  | rasterLine scanline rowaddr coladdr heblnk hsblnk =>
    obtain ⟨hf, hk⟩ := whenRunning_eq_next.mp h
    refine ⟨hf, ?_⟩
    cases hl : s.line with
    | some q => simp [hl] at hk
    | none =>
      refine ⟨rfl, ?_⟩
      cases hg : s.cfg.granularity with
      | line => simp only [hl, hg, Host.Outcome.next.injEq] at hk; exact .inl ⟨rfl, hk.symm⟩
      | pair => simp only [hl, hg, Host.Outcome.next.injEq] at hk; exact .inr ⟨rfl, hk.symm⟩
  | _ =>
    obtain ⟨hf, hk⟩ := whenRunning_eq_next.mp h
    exact ⟨hf, (Host.Outcome.next.inj hk).symm⟩

/-- Everything a step can do when it answers a next state. -/
theorem stepOn_cases {dev : PaletteDevice} {s t : State} (h : stepOn dev s = .next t) :
    s.fault = none ∧
      ((s.schedule = [] ∧ (∃ q, s.line = some q) ∧ t = advanceLine dev s) ∨
        (∃ rest, s.schedule = .advance :: rest ∧ (∃ q, s.line = some q) ∧ t = advanceLine dev (s.setSchedule rest)) ∨
        (∃ r rest i, s.schedule = .issue r :: rest ∧ decode r = .ok i ∧ execOn dev i (s.setSchedule rest) = .next t) ∨
        (∃ r rest k, s.schedule = .issue r :: rest ∧ decode r = .error (.reservedKind k) ∧
          t = (s.setSchedule rest).raise (.reservedKind k))) := by
  obtain ⟨hf, hk⟩ := whenRunning_eq_next.mp h
  refine ⟨hf, ?_⟩
  cases hs : s.schedule with
  | nil =>
    simp only [hs, idleMove] at hk
    cases hl : s.line with
    | none => simp [hl] at hk
    | some q => simp only [hl, Host.Outcome.next.injEq] at hk; exact .inl ⟨rfl, ⟨q, rfl⟩, hk.symm⟩
  | cons m rest =>
    cases m with
    | advance =>
      simp only [hs, advanceMove, State.setSchedule_line] at hk
      cases hl : s.line with
      | none => simp [hl] at hk
      | some q => simp only [hl, Host.Outcome.next.injEq] at hk; exact .inr (.inl ⟨rest, rfl, ⟨q, rfl⟩, hk.symm⟩)
    | issue r =>
      simp only [hs, issueRecord] at hk
      split at hk
      · next i hd => exact .inr (.inr (.inl ⟨r, rest, i, rfl, hd, hk⟩))
      · next k hd => exact .inr (.inr (.inr ⟨r, rest, k, rfl, hd, (Host.Outcome.next.inj hk).symm⟩))
      · simp at hk
      · simp at hk

end Sys2Proof.Machine
end

