-- ==== Sys2Proof/Tests/Slice0.lean ====
section
/-! SUPPORT. Tests: records and offsets written out from the spec's encodings, a smoke test of each well-formedness check,
the spec's worked examples one step at a time (95_test_vectors.md), and a witness for the hypotheses of each statement. -/

namespace Sys2Proof.Tests

open Sys2Proof.Machine

/-! ### Fixtures (95_test_vectors.md section 2) -/

/-- TD, the register file: sixteen 8-bit registers packed in the code, register 0 lowest; pen k is colour k. -/
def td : PaletteDevice where
  palRead s r := (⟨s.code / 256 ^ r.toNat % 256⟩, s)
  palWrite s r d := ⟨s.code - s.code / 256 ^ r.toNat % 256 * 256 ^ r.toNat + d.code % 256 * 256 ^ r.toNat⟩
  palPens _ k := ⟨k.toNat⟩

/-- TDP, the pointer device: the pointer in the code's lowest byte, entry k in byte k + 1; colour C(d) is d. -/
def tdp : PaletteDevice where
  palRead s r :=
    if r = 0 then (⟨s.code % 256⟩, s)
    else if r = 1 then
      (⟨s.code / 256 ^ (s.code % 256 + 1) % 256⟩, ⟨s.code - s.code % 256 + (s.code % 256 + 1) % 256⟩)
    else (⟨0⟩, s)
  palWrite s r d :=
    if r = 0 then ⟨s.code - s.code % 256 + d.code % 256⟩
    else if r = 1 then
      ⟨s.code - s.code / 256 ^ (s.code % 256 + 1) % 256 * 256 ^ (s.code % 256 + 1)
          + d.code % 256 * 256 ^ (s.code % 256 + 1) - s.code % 256 + (s.code % 256 + 1) % 256⟩
    else s
  palPens s k := ⟨s.code / 256 ^ (k.toNat + 1) % 256⟩

/-- The state an outcome goes on in. -/
def after : Host.Outcome State Fault Refusal → Option State
  | .next t => some t
  | _ => none

/-- The parameters the vectors use, with vram[0] = 0x0100 and vram[1] = 0x0302 (W3). -/
def twoWords : State :=
  State.reset.setVram [(1, 1#8), (2, 2#8), (3, 3#8)]

/-- The same state under granularity `pair`. -/
def twoWordsPair : State :=
  { twoWords with cfg := { twoWords.cfg with granularity := .pair } }

/-- vram[7] = 0x1234 (V-VW-1). -/
def wordSeven : State :=
  State.reset.setVram [(14, 0x34#8), (15, 0x12#8)]

/-- A RASTER_LINE of the two words, from x = 0 to hsblnk. -/
def rasterTo (hsblnk : Nat) : RasterParams :=
  { scanline := 0, rowaddr := 0, coladdr := 0, heblnk := 0, hsblnk := hsblnk }

/-- Under `pair`, a RASTER_LINE from x = 0 to 4 of which the pair at x has come up. -/
def midLine (x : Nat) : State :=
  { twoWordsPair with
    line := some { params := rasterTo 4, base := 0, cursor := x / 2, x := x }
    schedule := [.advance] }

/-- The pixels of a line that was drawn. -/
def pixels (o : Host.Outcome State Fault Refusal) (n : Nat) (xs : List Nat) : Option (List (Option Color)) :=
  (after o).map fun t => xs.map (Frame.read t.frame n)

/-! ### Decoding: records written out from R38 and R39 -/

theorem test_decode_palRd : decode { kind := 0b000#3, offset := some 0b1100000000000000#16 } = .ok (.palRd 0xC000#16) := rfl

theorem test_decode_palWr :
    decode { kind := 0b001#3, offset := some 0b1000000000000000#16, data := some ⟨0x5A⟩ } =
      .ok (.palWr 0x8000#16 ⟨0x5A⟩) := rfl

theorem test_decode_rasterLine :
    decode { kind := 0b010#3, scanline := some 2, rowaddr := some 0x7FF, coladdr := some 0x2FF, heblnk := some 10,
             hsblnk := some 14 } = .ok (.rasterLine 2 0x7FF 0x2FF 10 14) := rfl

theorem test_decode_irqAck : decode { kind := 0b011#3, level := some 1#1 } = .ok (.irqAck 1#1) := rfl

theorem test_decode_vramRd : decode { kind := 0b100#3, index := some 0x3FFFF } = .ok (.vramRd 0x3FFFF) := rfl

theorem test_decode_vramWr :
    decode { kind := 0b101#3, index := some 7, value := some 0xABCD#16, be := some 0b10#2 } =
      .ok (.vramWr 7 0xABCD#16 0b10#2) := rfl

/-- opcode_table.json: the byte enables default to 0b11. -/
theorem test_decode_vramWr_default :
    decode { kind := 0b101#3, index := some 7, value := some 0xABCD#16 } = .ok (.vramWr 7 0xABCD#16 0b11#2) := rfl

/-- V-RK-1 and R44: both reserved kinds. -/
theorem test_decode_reserved :
    decode { kind := 0b110#3 } = .error (.reservedKind 0b110#3) ∧
      decode { kind := 0b111#3 } = .error (.reservedKind 0b111#3) := ⟨rfl, rfl⟩

theorem test_tableWords :
    [0, 1, 2, 3, 4, 5, 6, 7].map (decodeTableWord 8) =
      [some (.palRd 0), some (.palWr 0 ⟨0⟩), some (.rasterLine 0 0 0 0 0), some (.irqAck 0), some (.vramRd 0),
        some (.vramWr 0 0 0), none, none] := by decide

/-- V-TR-1 to V-TR-18. -/
theorem test_translate_vectors :
    [0x0000, 0x0FFF, 0x1000, 0x2000, 0x3FFF, 0x4000, 0x5000, 0x6ABC, 0x7FFF, 0x8000, 0x9000, 0xA000, 0xB000, 0xC000, 0xD123,
      0xEFFF, 0xF000, 0xFFFF].map translateOffset = [0, 0, 1, 2, 3, 0, 1, 2, 3, 4, 5, 6, 7, 4, 5, 6, 7, 7] := by decide

/-- V-RL-4a to V-RL-4e, and W7 in row 0 (V-RL-5b). -/
theorem test_rowBase_vectors :
    [1, 0x3FF, 0x400, 0x401, 0xFFFF].map rowBase = [0x100, 0x3FF00, 0, 0x100, 0x3FF00] ∧
      [0x1FF, 0x200, 0x201].map (wordIndex (rowBase 0)) = [0x0FF, 0x000, 0x001] := by decide

/-! ### Well-formedness: an ill-formed term for each check -/

theorem test_wf_reservedKind : OpRecord.wellFormed { kind := 0b111#3 } = false := by decide

theorem test_wf_missingField : OpRecord.wellFormed { kind := 0b001#3, offset := some 0 } = false := by decide

theorem test_wf_foreignField : OpRecord.wellFormed { kind := 0b011#3, level := some 0, index := some 5 } = false := by decide

theorem test_wf_scanline : Config.reference.dutiesMet (.rasterLine 4 0 0 0 2) = false := by decide

theorem test_wf_spanOrdered : Config.reference.dutiesMet (.rasterLine 0 0 0 6 2) = false := by decide

theorem test_wf_spanEven : Config.reference.dutiesMet (.rasterLine 0 0 0 0 3) = false := by decide

theorem test_wf_spanFits : Config.reference.dutiesMet (.rasterLine 0 0 0 14 18) = false := by decide

theorem test_wf_row : Config.reference.dutiesMet (.rasterLine 0 1024 0 0 2) = false := by decide

theorem test_wf_index : Config.reference.dutiesMet (.vramRd 0x40000) = false := by decide

theorem test_wf_reach : Config.coversReach { Config.reference with vramWords := 0x3FFFF } = false := by decide

/-- Duty 7 of R83 on a smaller VRAM: V-RL-9a reads a word past it, V-RL-9b its last word. -/
theorem test_wf_wordsRead :
    let cfg := { Config.reference with vramWords := 0x20000 }
    cfg.dutiesMet (.rasterLine 0 0x200 0 0 2) = false ∧ cfg.dutiesMet (.rasterLine 0 0x1FF 0xFF 0 2) = true := by decide

theorem test_wf_good :
    OpRecord.wellFormed (encode (.rasterLine 3 1023 0x1FF 0 16)) = true ∧
      Config.reference.dutiesMet (.rasterLine 3 1023 0x1FF 0 16) = true := by decide

/-! ### The spec's vectors, one step each -/

/-- V-PR-1: with 0x5A in register 4, a read through the alias 0xC000 returns it. -/
theorem test_palRd_alias :
    (after (execOn td (.palRd 0xC000) (State.reset.setPal ⟨0x5A * 256 ^ 4⟩))).map State.lastReturned =
      some (some (.palData ⟨0x5A⟩)) := by decide

/-- V-PR-4, its first read: the pointer device at ptr = 5 returns ent[5] = 5 and moves to 6. -/
theorem test_palRd_sideEffect :
    (after (execOn tdp (.palRd 0x1000) (State.reset.setPal ⟨5 + 5 * 256 ^ 6⟩))).map (fun t => (t.lastReturned, t.pal)) =
      some (some (.palData ⟨5⟩), ⟨6 + 5 * 256 ^ 6⟩) := by decide

/-- V-PW-1. -/
theorem test_palWr :
    (after (execOn td (.palWr 0x8000 ⟨0x5A⟩) State.reset)).map (fun t => (t.pal, t.events)) =
      some (⟨0x5A * 256 ^ 4⟩, [.palWrite 0x8000 4 ⟨0x5A⟩]) := by decide

/-- V-PW-3: the highest offset reaches register 7, and register 15 is untouched. -/
theorem test_palWr_top :
    (after (execOn td (.palWr 0xFFFF ⟨0x33⟩) State.reset)).map State.pal = some ⟨0x33 * 256 ^ 7⟩ := by decide

/-- W3, V-RL-1: black, red, green, blue are pens 0 to 3. -/
theorem test_raster_endToEnd :
    pixels (execOn td (rasterOf (rasterTo 4)) twoWords) 0 [0, 1, 2, 3, 4] =
      some [some ⟨0⟩, some ⟨1⟩, some ⟨2⟩, some ⟨3⟩, none] := by decide

/-- V-RL-8a: pixels 14 and 15 are written, then x = 16 faults. -/
theorem test_raster_overflow :
    (after (execOn td (.rasterLine 0 0 0 14 18) twoWords)).map (fun t => (t.fault, [13, 14, 15, 16].map (Frame.read t.frame 0))) =
      some (some (.lineBufferOverflow 0 16), [none, some ⟨0⟩, some ⟨1⟩, none]) := by decide

/-- V-IA-1, its first operation. -/
theorem test_irqAck : after (exec (.irqAck 1) State.reset) = some (State.reset.emit (.irqAck 1)) := by decide

/-- V-VR-1 without the write: vram[7] reads as 0x1234. -/
theorem test_vramRd :
    (after (exec (.vramRd 7) wordSeven)).map State.lastReturned = some (some (.vramWord 0x1234)) := by decide

/-- V-VR-2 and its neighbour: the last word is read, the next index faults. -/
theorem test_vramRd_edge :
    (after (exec (.vramRd 0x3FFFF) wordSeven)).map State.fault = some none ∧
      (after (exec (.vramRd 0x40000) wordSeven)).map State.fault = some (some (.vramOutOfRange 0x40000)) := by decide

/-- V-VW-1, V-VW-2, V-VW-3, V-VW-4. -/
theorem test_vramWr_enables :
    [0b10#2, 0b01#2, 0b00#2, 0b11#2].map
        (fun be => (after (exec (.vramWr 7 0xABCD be) wordSeven)).map fun t => Memory.readWord t.vram 7) =
      [some 0xAB34, some 0x12CD, some 0x1234, some 0xABCD] := by decide

/-- V-VW-5. -/
theorem test_vramWr_edge :
    (after (exec (.vramWr 0x40000 1 3) wordSeven)).map (fun t => (t.fault, t.vram)) =
      some (some (.vramOutOfRange 0x40000), wordSeven.vram) := by decide

/-- V-RL-13, its step at x = 2 with ent[0] = 0x20: the pair resolves through the table held now. -/
theorem test_pair_currentTable :
    ((after (stepOn tdp { midLine 2 with vram := [], pal := ⟨0x20 * 256⟩ })).map fun t =>
        ([1, 2, 3].map (Frame.read t.frame 0), t.line.map LineProgress.x)) =
      some ([none, some ⟨0x20⟩, some ⟨0x20⟩], some 4) := by decide

/-- The first step after reset of an opcode-table word (log entry 6). -/
theorem test_step_tableWord : step (State.reset.withFetchWord 8 3) = exec (.irqAck 0) State.reset := rfl

/-- R46 with the texts of L3-2, L3-3 and V-VW-1, a syntax error, and the 0b notation. -/
theorem test_assemble :
    assemble "raster 2, 0x7FF, 0x2FF, 10, 14" = some (encode (.rasterLine 2 0x7FF 0x2FF 10 14)) ∧
      assembleInstr "pal.rdr 7" = some (.palRd 0xB000) ∧ assembleInstr "pal.rdr 8" = none ∧
      assembleInstr "vram.wrh 0x3FF00, 0x05" = some (.vramWr 0x3FF00 0x0500 0b10) ∧
      assembleInstr "vram.wr 7, 0xABCD, 0b10" = some (.vramWr 7 0xABCD 0b10) ∧
      assembleInstr "irq.ack 2" = none := by decide

/-! ### Witnesses: the hypotheses of the statements can be met -/

theorem twoWords_ready : twoWords.LineReady := ⟨rfl, rfl, rfl⟩

theorem twoWords_fits {p : RasterParams} (h : ∀ k < pairCount p.heblnk p.hsblnk,
    wordIndex (rowBase p.rowaddr) (p.coladdr + k) < 0x40000 ∧ p.heblnk + 2 * k + 1 < 16) :
    ∀ k < pairCount p.heblnk p.hsblnk, pairFits twoWords.cfg p k := h

/-- W4: the cross-wired line is set in 0x9000. -/
theorem witness_TranslateStaysBelowEight :
    (((0x9000 : Offset) >>> 12).setWidth 4 &&& ~~~4#4).getLsbD 3 = true ∧ translateOffset 0x9000 = 5 := by decide

theorem witness_RowBaseSelectsOneOf1024Rows :
    Config.reference.coversReach = true ∧ rowBase 1023 = 0x3FF00 ∧ rowBase 1024 = 0 := by decide

theorem witness_AliasesReachTheSameRegister :
    State.reset.fault = none ∧ translateOffset 0x8000 = translateOffset 0xC000 := by decide

theorem witness_AliasedReadBack :
    (∀ p, (td.palRead (td.palWrite p (translateOffset 0x8000) ⟨0x5A⟩) (translateOffset 0x8000)).1 = ⟨0x5A⟩) ∧
      State.reset.fault = none ∧ (0x8000 : Offset).getLsbD 15 = (0xCFFF : Offset).getLsbD 15 ∧
      (0x8000 : Offset).getLsbD 13 = (0xCFFF : Offset).getLsbD 13 ∧
      (0x8000 : Offset).getLsbD 12 = (0xCFFF : Offset).getLsbD 12 := by
  refine ⟨fun p => ?_, by decide, by decide, by decide, by decide⟩
  have h : (translateOffset 0x8000).toNat = 4 := by decide
  simp only [td, h, PalData.mk.injEq]
  omega

/-- For PalRdForwardsToTheDevice, PalWrForwardsToTheDevice, IrqAckOnlyRecords and StepPerformsTheIssuedOperation. -/
theorem witness_noFault :
    (issueNext (encode (.irqAck 1)) State.reset).fault = none ∧
      (issueNext (encode (.irqAck 1)) State.reset).schedule = [.issue (encode (.irqAck 1))] ∧
      decode (encode (.irqAck 1)) = .ok (.irqAck 1) := ⟨rfl, rfl, rfl⟩

theorem witness_RasterLineDrawsItsPairs :
    twoWords.LineReady ∧ (rasterTo 16).scanline < twoWords.cfg.screenLines ∧
      ∀ k < pairCount (rasterTo 16).heblnk (rasterTo 16).hsblnk, pairFits twoWords.cfg (rasterTo 16) k :=
  ⟨twoWords_ready, by decide, twoWords_fits (by decide)⟩

theorem witness_EvenSpanWritesExactlyTheSpan :
    twoWords.LineReady ∧ (rasterTo 16).scanline < twoWords.cfg.screenLines ∧ (rasterTo 16).heblnk ≤ (rasterTo 16).hsblnk ∧
      ((rasterTo 16).hsblnk - (rasterTo 16).heblnk) % 2 = 0 ∧ (rasterTo 16).hsblnk ≤ twoWords.cfg.lineWidth ∧
      ∀ k < ((rasterTo 16).hsblnk - (rasterTo 16).heblnk) / 2,
        wordIndex (rowBase (rasterTo 16).rowaddr) ((rasterTo 16).coladdr + k) < twoWords.cfg.vramWords :=
  ⟨twoWords_ready, by decide, by decide, by decide, by decide, by decide⟩

/-- V-RL-6a and V-RL-6b, a scanline without a buffer, and the same under `pair`. -/
theorem witness_EmptySpanDrawsNothing :
    twoWords.fault = none ∧ twoWords.line = none ∧ (rasterTo 0).hsblnk ≤ (rasterTo 0).heblnk ∧
      (rasterTo 0).scanline < twoWords.cfg.screenLines ∧ twoWords.cfg.granularity = .line ∧
      twoWords.cfg.screenLines ≤ ({ rasterTo 0 with scanline := 4 } : RasterParams).scanline ∧
      twoWordsPair.fault = none ∧ twoWordsPair.line = none ∧ twoWordsPair.cfg.granularity = .pair := by decide

/-- V-RL-7 (inside the buffer, at its last position) and V-RL-8b (at its end). -/
theorem witness_OddSpanWritesThroughItsEnd :
    twoWords.LineReady ∧ (rasterTo 15).scanline < twoWords.cfg.screenLines ∧ (rasterTo 15).heblnk < (rasterTo 15).hsblnk ∧
      ((rasterTo 15).hsblnk - (rasterTo 15).heblnk) % 2 = 1 ∧ (rasterTo 15).hsblnk < twoWords.cfg.lineWidth ∧
      wordsBacked twoWords.cfg (rasterTo 15) ∧
      ((({ rasterTo 16 with heblnk := 15 } : RasterParams).hsblnk - 15) % 2 = 1 ∧ twoWords.cfg.lineWidth ≤ 16) ∧
      wordsBacked twoWords.cfg { rasterTo 16 with heblnk := 15 } :=
  ⟨twoWords_ready, by decide, by decide, by decide, by decide, by unfold wordsBacked; decide, by decide,
    by unfold wordsBacked; decide⟩

/-- Pair 8 passes the end of the buffer, and the word of pair 9 is not backed. -/
theorem witness_OverflowFaultKeepsDrawnPixels :
    let s : State := { twoWords with cfg := { twoWords.cfg with vramWords := 9 } }
    s.LineReady ∧ (rasterTo 20).scanline < s.cfg.screenLines ∧ (rasterTo 20).heblnk < (rasterTo 20).hsblnk ∧
      s.cfg.lineWidth < (rasterTo 20).heblnk + 2 * pairCount (rasterTo 20).heblnk (rasterTo 20).hsblnk ∧
      wordsBacked s.cfg (rasterTo 20) ∧ 9 < pairCount (rasterTo 20).heblnk (rasterTo 20).hsblnk ∧
      s.cfg.vramWords ≤ wordIndex (rowBase (rasterTo 20).rowaddr) ((rasterTo 20).coladdr + 9) :=
  ⟨⟨rfl, rfl, rfl⟩, by decide, by decide, by decide, by unfold wordsBacked; decide, by decide, by decide⟩

/-- A backed extent of one word: the second pair's word is not backed. -/
theorem witness_UnbackedWordFaultsBeforeItsPixels :
    let s : State := { twoWords with cfg := { twoWords.cfg with vramWords := 1 } }
    s.LineReady ∧ (rasterTo 4).scanline < s.cfg.screenLines ∧ 1 < pairCount (rasterTo 4).heblnk (rasterTo 4).hsblnk ∧
      (∀ j < 1, wordIndex (rowBase 0) (0 + j) < s.cfg.vramWords ∧ 0 + 2 * j + 1 < s.cfg.lineWidth) ∧
      s.cfg.vramWords ≤ wordIndex (rowBase (rasterTo 4).rowaddr) ((rasterTo 4).coladdr + 1) :=
  ⟨⟨rfl, rfl, rfl⟩, by decide, by decide, by decide, by decide⟩

theorem witness_ScanlineOnlySelectsTheBuffer :
    (twoWords.fault = none ∧ twoWords.line = none ∧
        twoWords.cfg.screenLines ≤ ({ rasterTo 4 with scanline := 4 } : RasterParams).scanline) ∧
      twoWords.LineReady ∧ (rasterTo 4).scanline < twoWords.cfg.screenLines ∧ 3 < twoWords.cfg.screenLines ∧
      ∀ x, Frame.read twoWords.frame (rasterTo 4).scanline x = Frame.read twoWords.frame 3 x :=
  ⟨by decide, twoWords_ready, by decide, by decide, fun _ => rfl⟩

/-- A RASTER_LINE that answers a next state, one partly done, and two
devices with one table. -/
theorem witness_RasterLineFrame :
    exec (rasterOf (rasterTo 0)) twoWords = .next (twoWords.emit (.rasterLine (rasterTo 0))) ∧
      (∃ q, (midLine 2).line = some q) ∧
      td.palPens = ({ td with palRead := tdp.palRead } : PaletteDevice).palPens := ⟨rfl, ⟨_, rfl⟩, rfl⟩

theorem witness_RowAndColumnAddressesWrap : twoWords.LineReady ∧ 0x1FF % 256 = 255 := ⟨twoWords_ready, rfl⟩

/-- A VRAM that differs from the state's outside row 0 only. -/
theorem witness_RasterLineReadsOnlyItsRow :
    twoWords.LineReady ∧
      ∀ i, i / 256 = (rasterTo 4).rowaddr % 1024 →
        Memory.readWord (Memory.writeWord twoWords.vram 256 0xFFFF) i = Memory.readWord twoWords.vram i :=
  ⟨twoWords_ready, fun i hi => Memory.readWord_writeWord_other (by rintro rfl; simp [rasterTo] at hi) _ _⟩

/-- V-RL-11: both bytes of the word are 0x2A. -/
theorem witness_SameIndexSameColour :
    let s : State := State.reset.setVram [(0, 0x2A#8), (1, 0x2A#8)]
    s.LineReady ∧ (∃ t, exec (rasterOf (rasterTo 2)) s = .next t ∧ t.fault = none) ∧
      (rasterTo 2).heblnk ≤ 0 ∧ 0 < (rasterTo 2).hsblnk ∧ (rasterTo 2).heblnk ≤ 1 ∧ 1 < (rasterTo 2).hsblnk ∧
      penAt (rasterTo 2) s.vram 0 = penAt (rasterTo 2) s.vram 1 :=
  ⟨⟨rfl, rfl, rfl⟩, ⟨_, rfl, rfl⟩, by decide, by decide, by decide, by decide, by decide⟩

/-- A state with words, pixels and a line partly done meets the invariant. -/
theorem midLine_inv : ({ midLine 2 with frame := [(0, [(0, ⟨0⟩), (1, ⟨1⟩)])] } : State).Inv where
  vramWf := by decide
  vramWithin := by decide
  frameWf := by decide
  frameWithin := by decide
  lineAtomic := by decide
  lineInv := by
    rintro q hq
    cases hq
    exact ⟨by decide, by decide, 1, by decide, rfl, rfl⟩

theorem witness_CoveredReachNeverFaults :
    let s : State := { midLine 2 with frame := [(0, [(0, ⟨0⟩), (1, ⟨1⟩)])] }
    s.Inv ∧ s.fault = none ∧ s.cfg.coversReach = true :=
  ⟨midLine_inv, rfl, by decide⟩

theorem witness_PairGranularityStartsTheLine :
    twoWordsPair.fault = none ∧ twoWordsPair.line = none ∧ twoWordsPair.cfg.granularity = .pair ∧
      (rasterTo 4).scanline < twoWordsPair.cfg.screenLines := by decide

/-- Each clause at its edge: past the end; a word that is not backed; x at, one before and two before the buffer's end. -/
theorem witness_AdvanceTakesOnePair :
    let q : Nat → LineProgress := fun x => { params := rasterTo 17, base := 0, cursor := x / 2, x := x }
    let s : Nat → State := fun x => { midLine 0 with line := some (q x) }
    (∀ x, (s x).fault = none ∧ (s x).schedule = .advance :: [] ∧ (s x).line = some (q x)) ∧
      (rasterTo 17).hsblnk ≤ (q 17).x ∧
      ((q 2).x < (rasterTo 17).hsblnk ∧ ({ (s 2).cfg with vramWords := 1 } : Config).vramWords ≤ wordIndex (q 2).base (q 2).cursor) ∧
      ((q 16).x < (rasterTo 17).hsblnk ∧ wordIndex (q 16).base (q 16).cursor < (s 16).cfg.vramWords ∧
        (s 16).cfg.lineWidth ≤ (q 16).x) ∧
      ((q 15).x < (rasterTo 17).hsblnk ∧ wordIndex (q 15).base (q 15).cursor < (s 15).cfg.vramWords ∧
        (q 15).x + 1 = (s 15).cfg.lineWidth) ∧
      (q 14).x < (rasterTo 17).hsblnk ∧ wordIndex (q 14).base (q 14).cursor < (s 14).cfg.vramWords ∧
        (q 14).x + 1 < (s 14).cfg.lineWidth :=
  ⟨fun _ => ⟨rfl, rfl, rfl⟩, by decide, by decide, by decide, by decide, by decide, by decide, by decide⟩

theorem witness_OtherOperationsLeaveTheLine :
    (midLine 2).fault = none ∧ (∃ q, (midLine 2).line = some q) ∧ ∀ p, Instr.irqAck 1 ≠ rasterOf p :=
  ⟨rfl, ⟨_, rfl⟩, fun _ h => by cases h⟩

theorem witness_LineRunIsAnUninterruptedPairRun :
    twoWords.LineReady ∧ twoWords.schedule = [] ∧ ∃ t, exec (rasterOf (rasterTo 4)) twoWords = .next t ∧ t.fault = none :=
  ⟨twoWords_ready, rfl, _, rfl, rfl⟩

/-- For PalWrTakesEffectBetweenLines and VramWrIsSeenByTheNextLine. -/
theorem witness_writeBeforeLine :
    twoWords.LineReady ∧ (rasterTo 16).scanline < twoWords.cfg.screenLines ∧
      (∀ k < pairCount (rasterTo 16).heblnk (rasterTo 16).hsblnk, pairFits twoWords.cfg (rasterTo 16) k) ∧
      7 < pairCount (rasterTo 16).heblnk (rasterTo 16).hsblnk :=
  ⟨twoWords_ready, by decide, twoWords_fits (by decide), by decide⟩

/-- For VramRdReturnsTheWord and VramWrMergesEnabledBytes: the last word and the index after it. -/
theorem witness_vramEdges :
    wordSeven.fault = none ∧ 0x3FFFF < wordSeven.cfg.vramWords ∧ wordSeven.cfg.vramWords ≤ 0x40000 := by decide

theorem witness_VramRdReturnsTheLastWrite :
    wordSeven.fault = none ∧ 7 < wordSeven.cfg.vramWords ∧ (∀ j v be, Instr.irqAck 1 ≠ .vramWr j v be) ∧
      ∃ a b, exec (.vramWr 7 0xABCD 3#2) wordSeven = .next a ∧ exec (.irqAck 1) a = .next b ∧ b.fault = none :=
  ⟨rfl, by decide, (fun _ _ _ h => by cases h), _, _, rfl, rfl, rfl⟩

/-- For the statements about every step that answers a next state: one that issues an operation, one that carries a line
on, and one that records a fault. -/
theorem witness_stepAnswersNext :
    (∃ t, step (issueNext (encode (.vramWr 7 0xABCD 1)) wordSeven) = .next t) ∧ (∃ t, step (midLine 2) = .next t) ∧
      ∃ t, step (issueNext (encode (.vramRd 0x40000)) wordSeven) = .next t ∧ t.fault = some (.vramOutOfRange 0x40000) :=
  ⟨⟨_, rfl⟩, ⟨_, rfl⟩, _, rfl, rfl⟩

theorem witness_FaultEndsTheRun : (State.reset.raise (.scanlineOutOfRange 4)).fault = some (.scanlineOutOfRange 4) := rfl

theorem witness_ReservedKindsFault :
    let r : OpRecord := { kind := 0b111#3, index := some 5 }
    (issueNext r State.reset).fault = none ∧ (issueNext r State.reset).schedule = .issue r :: [] ∧
      (r.kind = 0b110#3 ∨ r.kind = 0b111#3) :=
  ⟨rfl, rfl, .inr rfl⟩

theorem witness_RunEndsWhenNothingIsIssued :
    (State.reset.fault = none ∧ State.reset.schedule = [] ∧ State.reset.line = none) ∧
      ((midLine 2).setSchedule []).fault = none ∧ ((midLine 2).setSchedule []).schedule = [] ∧
      ∃ q, ((midLine 2).setSchedule []).line = some q :=
  ⟨⟨rfl, rfl, rfl⟩, rfl, rfl, _, rfl⟩

/-- The edges of R46's ranges: R = 7 is a register, R = 8 is not; B = 255 is a byte. -/
theorem witness_PseudoInstructionsExpand :
    AsmLine.expand (.palRdr 7) = some (.palRd 0xB000) ∧ (7 < 8 ∧ AsmLine.expand (.palRdr 8) = none) ∧
      AsmLine.expand (.vramWrh 0 255) = some (.vramWr 0 0xFF00 2) := by decide

theorem witness_LaunchMeetsTheInvariant :
    Memory.wf [(1, 1#8), (0x7FFFF, 3#8)] ∧ Memory.within 0x40000 [(1, 1#8), (0x7FFFF, 3#8)] := by decide

theorem witness_StepKeepsTheInvariant :
    let s : State := { midLine 2 with frame := [(0, [(0, ⟨0⟩), (1, ⟨1⟩)])] }
    s.Inv ∧ ∃ t, step s = .next t :=
  ⟨midLine_inv, _, rfl⟩

/-- A backed extent of eight words, which a RASTER_LINE of eight pairs of row 0 keeps within. -/
def eightWords : State :=
  { twoWords with cfg := { twoWords.cfg with vramWords := 8 } }

/-- A RASTER_LINE that keeps every duty, to the end of the buffer and of the extent. -/
theorem dutiful_raster : (issueNext (encode (rasterOf (rasterTo 16))) eightWords).Dutiful where
  inv :=
    { vramWf := by decide
      vramWithin := by decide
      frameWf := by decide
      frameWithin := by decide
      lineAtomic := by decide
      lineInv := fun q hq => by cases hq }
  noFault := rfl
  moves := by decide
  lineDuties := fun q hq => by cases hq

/-- For DutifulDriverNeverFaults and DutifulOperationCompletes. -/
theorem witness_DutifulDriverNeverFaults :
    let s := issueNext (encode (rasterOf (rasterTo 16))) eightWords
    s.Dutiful ∧ (∃ t, step s = .next t) ∧ s.schedule = .issue (encode (rasterOf (rasterTo 16))) :: [] ∧ s.line = none :=
  ⟨dutiful_raster, ⟨_, rfl⟩, rfl, rfl⟩

end Sys2Proof.Tests
end

section
/-! The driver's issue move: the record it issues is performed in the state with that move taken off the schedule (R6, R33). -/

namespace Sys2Proof.Machine

/-- A record that decodes to an operation performs it (R6). -/
theorem issueRecord_of_decode_ok {run : Instr → State → Host.Outcome State Fault Refusal} {r : OpRecord} {i : Instr}
    (hd : decode r = .ok i) (s : State) : issueRecord run r s = run i s := by
  simp only [issueRecord, hd]

/-- While no fault is recorded, a step whose oldest move issues a record takes the move off the schedule and issues it. -/
theorem driverStep_of_issue {dev : PaletteDevice} {run : Instr → State → Host.Outcome State Fault Refusal} {r : OpRecord}
    {rest : List DriverMove} {s : State} (hf : s.fault = none) (hs : s.schedule = .issue r :: rest) :
    driverStep dev run s = issueRecord run r (s.setSchedule rest) := by
  simp only [driverStep, whenRunning_of_none hf, hs]

/-- Settles O40: the step issues the record (R33), and issuing it performs the operation it decodes to (R6). -/
theorem stepPerformsTheIssuedOperation : Obligations.StepPerformsTheIssuedOperation := by
  intro r i rest s hf hs hd
  calc step s = issueRecord exec r (s.setSchedule rest) := driverStep_of_issue hf hs
    _ = exec i (s.setSchedule rest) := issueRecord_of_decode_ok hd _

end Sys2Proof.Machine
end

section
/-! The invariant (R12, R20, R21): what each update, each step of a RASTER_LINE, each operation and each step of the machine
keeps of it. Inside the one step that performs a whole RASTER_LINE under granularity `line` the line is partly done, so the
raster steps keep State.MidStepInv, the invariant without the atomicity of a line; that the line is over at the end of such a
step is runLine_startLine_ends. -/

namespace Sys2Proof.Machine

/-- The invariant without the atomicity of a line: it also holds between two pairs within one step. -/
structure State.MidStepInv (s : State) : Prop where
  vramWf : Memory.wf s.vram
  vramWithin : Memory.within s.cfg.vramWords s.vram
  frameWf : Frame.wf s.frame
  frameWithin : Frame.within s.cfg s.frame
  lineInv : ∀ q, s.line = some q → LineProgress.Inv s.cfg q

theorem State.Inv.toMidStepInv {s : State} (h : s.Inv) : s.MidStepInv where
  vramWf := h.vramWf
  vramWithin := h.vramWithin
  frameWf := h.frameWf
  frameWithin := h.frameWithin
  lineInv := h.lineInv

theorem State.MidStepInv.toInv {s : State} (h : s.MidStepInv) (ha : s.cfg.granularity = .line → s.line = none) :
    s.Inv where
  vramWf := h.vramWf
  vramWithin := h.vramWithin
  frameWf := h.frameWf
  frameWithin := h.frameWithin
  lineAtomic := ha
  lineInv := h.lineInv

/-! ### Updates of the state -/

/-- The invariant speaks of the configuration, VRAM, the output lines and the line partly done, and of no other field. -/
theorem State.MidStepInv.congr {s t : State} (h : s.MidStepInv) (hc : t.cfg = s.cfg) (hv : t.vram = s.vram)
    (hf : t.frame = s.frame) (hl : t.line = s.line) : t.MidStepInv where
  vramWf := hv ▸ h.vramWf
  vramWithin := by rw [hc, hv]; exact h.vramWithin
  frameWf := hf ▸ h.frameWf
  frameWithin := by rw [hc, hf]; exact h.frameWithin
  lineInv := by rw [hc, hl]; exact h.lineInv

theorem State.Inv.congr {s t : State} (h : s.Inv) (hc : t.cfg = s.cfg) (hv : t.vram = s.vram) (hf : t.frame = s.frame)
    (hl : t.line = s.line) : t.Inv :=
  (h.toMidStepInv.congr hc hv hf hl).toInv (by rw [hc, hl]; exact h.lineAtomic)

theorem State.Inv.setPal {s : State} (h : s.Inv) (p : PalState) : (s.setPal p).Inv := h.congr rfl rfl rfl rfl

theorem State.Inv.setSchedule {s : State} (h : s.Inv) (q : List DriverMove) : (s.setSchedule q).Inv :=
  h.congr rfl rfl rfl rfl

theorem State.Inv.emit {s : State} (h : s.Inv) (e : Event) : (s.emit e).Inv := h.congr rfl rfl rfl rfl

theorem State.Inv.raise {s : State} (h : s.Inv) (f : Fault) : (s.raise f).Inv := h.congr rfl rfl rfl rfl

theorem State.Inv.setVram {s : State} (h : s.Inv) {m : Memory} (hwf : Memory.wf m)
    (hin : Memory.within s.cfg.vramWords m) : (s.setVram m).Inv where
  vramWf := hwf
  vramWithin := hin
  frameWf := h.frameWf
  frameWithin := h.frameWithin
  lineAtomic := h.lineAtomic
  lineInv := h.lineInv

theorem State.MidStepInv.setLine {s : State} (h : s.MidStepInv) {l : Option LineProgress}
    (hl : ∀ q, l = some q → LineProgress.Inv s.cfg q) : (s.setLine l).MidStepInv where
  vramWf := h.vramWf
  vramWithin := h.vramWithin
  frameWf := h.frameWf
  frameWithin := h.frameWithin
  lineInv := hl

/-- A pixel inside its buffer is written (R20). -/
theorem State.MidStepInv.writePixel {s : State} (h : s.MidStepInv) {n x : Nat} (hn : n < s.cfg.screenLines)
    (hx : x < s.cfg.lineWidth) (c : Color) : (s.setFrame (Frame.write s.frame n x c)).MidStepInv where
  vramWf := h.vramWf
  vramWithin := h.vramWithin
  frameWf := Frame.write_wf h.frameWf n x c
  frameWithin := Frame.write_within h.frameWithin hn hx c
  lineInv := h.lineInv

/-- The two pixels of a pair inside their buffer are written (R57). -/
theorem State.MidStepInv.writePair {s : State} (h : s.MidStepInv) {n x : Nat} (hn : n < s.cfg.screenLines)
    (hx : x + 1 < s.cfg.lineWidth) (c d : Color) :
    (s.setFrame (Frame.write (Frame.write s.frame n x c) n (x + 1) d)).MidStepInv :=
  (h.writePixel hn (Nat.lt_of_succ_lt hx) c).writePixel (s := s.setFrame (Frame.write s.frame n x c)) hn hx d

/-! ### The steps of a RASTER_LINE -/

/-- Pair k is one of the loop's exactly while its first position lies before the end of the span (R56). -/
theorem lt_pairCount_iff {heblnk hsblnk k : Nat} : k < pairCount heblnk hsblnk ↔ heblnk + 2 * k < hsblnk := by
  unfold pairCount
  split <;> omega

/-- A pair taken leaves one pair less of the span (R56, R57). -/
theorem pairCount_eq_succ {x hsblnk : Nat} (h : x < hsblnk) : pairCount x hsblnk = pairCount (x + 2) hsblnk + 1 := by
  unfold pairCount
  split <;> split <;> omega

/-- A line's first step leaves it at its pair 0 (R53). -/
theorem LineProgress.inv_first {cfg : Config} {p : RasterParams} (h : p.scanline < cfg.screenLines) :
    LineProgress.Inv cfg { params := p, base := rowBase p.rowaddr, cursor := p.coladdr, x := p.heblnk } :=
  ⟨h, rfl, 0, Nat.zero_le _, rfl, rfl⟩

/-- A pair taken before the end of the span leaves the line at the pair after it (R55, R57). -/
theorem LineProgress.Inv.next {cfg : Config} {q : LineProgress} (h : LineProgress.Inv cfg q)
    (hx : q.x < q.params.hsblnk) : LineProgress.Inv cfg { q with cursor := q.cursor + 1, x := q.x + 2 } := by
  obtain ⟨hn, hb, k, -, hc, hk⟩ := h
  have hlt : k < pairCount q.params.heblnk q.params.hsblnk := lt_pairCount_iff.mpr (hk ▸ hx)
  exact ⟨hn, hb, k + 1, hlt, by simp only [hc, Nat.add_assoc], by simp only [hk, Nat.mul_add, Nat.add_assoc]⟩

theorem State.MidStepInv.endLine {s : State} (h : s.MidStepInv) : (s.setLine none).MidStepInv :=
  h.setLine (by simp)

theorem State.MidStepInv.abandonLine {s : State} (h : s.MidStepInv) (f : Fault) : (abandonLine f s).MidStepInv :=
  h.endLine.congr rfl rfl rfl rfl

theorem State.MidStepInv.startLine {s : State} (h : s.MidStepInv) (p : RasterParams) : (startLine p s).MidStepInv := by
  rcases startLine_cases p s with ⟨-, e⟩ | ⟨hn, e⟩
  · rw [e]
    exact h.congr rfl rfl rfl rfl
  · rw [e]
    exact h.setLine (fun q hq => Option.some.inj hq ▸ LineProgress.inv_first hn)

theorem State.MidStepInv.pairStep {s : State} (h : s.MidStepInv) (dev : PaletteDevice) {q : LineProgress}
    (hq : s.line = some q) (hx : q.x < q.params.hsblnk) : (pairStep dev q s).MidStepInv := by
  have hn : q.params.scanline < s.cfg.screenLines := (h.lineInv q hq).1
  rcases pairStep_cases dev q s with ⟨-, e⟩ | ⟨-, -, e⟩ | ⟨-, hw, -, e⟩ | ⟨-, hw, e⟩
  · rw [e]
    exact h.abandonLine _
  · rw [e]
    exact h.abandonLine _
  · rw [e]
    exact (h.writePixel hn hw _).abandonLine _
  · rw [e]
    exact (h.writePair hn hw _ _).setLine (fun q' hq' => Option.some.inj hq' ▸ (h.lineInv q hq).next hx)

theorem State.MidStepInv.advanceLine {s : State} (h : s.MidStepInv) (dev : PaletteDevice) :
    (advanceLine dev s).MidStepInv := by
  rcases advanceLine_cases dev s with ⟨-, e⟩ | ⟨q, hq, hx, e⟩ | ⟨q, -, -, e⟩
  · rwa [e]
  · rw [e]
    exact h.pairStep dev hq hx
  · rw [e]
    exact h.endLine.congr rfl rfl rfl rfl

theorem State.MidStepInv.runLine {s : State} (h : s.MidStepInv) (dev : PaletteDevice) (n : Nat) :
    (runLine dev n s).MidStepInv :=
  runLine_keeps (fun _ ht => ht.advanceLine dev) n h

/-- A line is over after more steps than it has pairs left (R56, R66). -/
theorem runLine_ends (dev : PaletteDevice) (n : Nat) {s : State}
    (h : ∀ q, s.line = some q → pairCount q.x q.params.hsblnk < n) : (runLine dev n s).line = none := by
  induction n generalizing s with
  | zero => exact Option.eq_none_iff_forall_ne_some.mpr fun q hq => Nat.not_lt_zero _ (h q hq)
  | succ n ih =>
    refine ih fun q' hq' => ?_
    rcases advanceLine_cases dev s with ⟨hl, e⟩ | ⟨q, hq, hx, e⟩ | ⟨q, -, -, e⟩
    · simp [e, hl] at hq'
    · rcases pairStep_line dev q s with ⟨hl, -⟩ | ⟨hl, -⟩
      · simp [e, hl] at hq'
      · rw [e, hl] at hq'
        obtain rfl := Option.some.inj hq'
        have left := h q hq
        rw [pairCount_eq_succ hx] at left
        exact Nat.lt_of_succ_lt_succ left
    · simp [e, finishLine] at hq'

/-- The steps RASTER_LINE takes under `line` bring it to its end (R66). -/
theorem runLine_startLine_ends (dev : PaletteDevice) (p : RasterParams) {s : State} (hl : s.line = none) :
    (runLine dev (pairCount p.heblnk p.hsblnk + 1) (startLine p s)).line = none := by
  refine runLine_ends dev _ fun q hq => ?_
  rcases startLine_cases p s with ⟨-, e⟩ | ⟨-, e⟩
  · simp [e, hl] at hq
  · rw [e] at hq
    obtain rfl := Option.some.inj hq
    exact Nat.lt_succ_self _

/-! ### Operations and steps -/

/-- An access keeps the invariant when it does so below the extent (R69, R70). -/
theorem State.Inv.whenBacked {s : State} (h : s.Inv) {index : Nat} {k : State → State}
    (hk : index < s.cfg.vramWords → (k s).Inv) : (whenBacked index k s).Inv := by
  rcases whenBacked_cases index k s with ⟨-, e⟩ | ⟨hi, e⟩
  · rw [e]
    exact h.raise _
  · rw [e]
    exact hk hi

/-- A partly done RASTER_LINE that takes its next step under granularity `pair` (R66). -/
theorem State.Inv.advanceLine {s : State} (h : s.Inv) (dev : PaletteDevice) {q : LineProgress} (hq : s.line = some q) :
    (advanceLine dev s).Inv := by
  refine (h.toMidStepInv.advanceLine dev).toInv fun hg => ?_
  rw [(advanceLine_keeps dev s).1] at hg
  simp [h.lineAtomic hg] at hq

/-- Every operation keeps the invariant, on any device. -/
theorem execOn_keeps_inv {dev : PaletteDevice} {i : Instr} {s t : State} (h : s.Inv) (hx : execOn dev i s = .next t) :
    t.Inv := by
  obtain ⟨-, ht⟩ := execOn_cases hx
  cases i with
  | palRd offset =>
    cases ht
    exact (h.setPal _).emit _
  | palWr offset data =>
    cases ht
    exact (h.setPal _).emit _
  | rasterLine scanline rowaddr coladdr heblnk hsblnk =>
    obtain ⟨hl, ⟨-, rfl⟩ | ⟨hg, rfl⟩⟩ := ht
    · exact ((h.toMidStepInv.startLine _).runLine dev _).toInv fun _ =>
        runLine_startLine_ends dev ⟨scanline, rowaddr, coladdr, heblnk, hsblnk⟩ hl
    · refine (h.toMidStepInv.startLine _).toInv fun hg' => ?_
      rw [(startLine_keeps _ s).1, hg] at hg'
      cases hg'
  | irqAck level =>
    cases ht
    exact h.emit _
  | vramRd index =>
    cases ht
    exact h.whenBacked fun _ => h.emit _
  | vramWr index value be =>
    cases ht
    exact h.whenBacked fun hi =>
      (h.setVram (Memory.writeWord_wf h.vramWf _ _) (Memory.writeWord_within h.vramWithin hi _)).emit _

/-- Every step keeps the invariant, on any device. -/
theorem stepOn_keeps_inv {dev : PaletteDevice} {s t : State} (h : s.Inv) (hs : stepOn dev s = .next t) : t.Inv := by
  obtain ⟨-, idle | advance | issue | reserved⟩ := stepOn_cases hs
  · obtain ⟨-, ⟨q, hq⟩, rfl⟩ := idle
    exact h.advanceLine dev hq
  · obtain ⟨rest, -, ⟨q, hq⟩, rfl⟩ := advance
    exact (h.setSchedule rest).advanceLine dev hq
  · obtain ⟨r, rest, i, -, -, hx⟩ := issue
    exact execOn_keeps_inv (h.setSchedule rest) hx
  · obtain ⟨r, rest, k, -, -, rfl⟩ := reserved
    exact (h.setSchedule rest).raise _

/-- Settles O48: the invariant is kept by each move of the driver, whatever the device. -/
theorem stepKeepsTheInvariant : Obligations.StepKeepsTheInvariant :=
  fun s _ h hs => stepOn_keeps_inv h (step_eq_stepOn s ▸ hs)

/-- A launch state with canonical VRAM inside the extent meets the invariant (R24). -/
theorem State.launch_inv {cfg : Config} {vram0 : Memory} (hwf : Memory.wf vram0) (hin : Memory.within cfg.vramWords vram0)
    (pal0 : PalState) : (State.launch cfg vram0 pal0).Inv where
  vramWf := hwf
  vramWithin := hin
  frameWf := ⟨List.Pairwise.nil, by simp⟩
  frameWithin := by simp
  lineAtomic := fun _ => rfl
  lineInv := by simp

/-- Settles O47: the reset state is a launch state, whose VRAM lists nothing. -/
theorem launchMeetsTheInvariant : Obligations.LaunchMeetsTheInvariant :=
  ⟨fun _ _ pal0 hwf hin => State.launch_inv hwf hin pal0, State.launch_inv State.reset_vram_wf (by simp [State.reset]) _⟩

/-- Settles O42: no pixel is listed in the empty frame of a launch state. -/
theorem launchStateIsAsGiven : Obligations.LaunchStateIsAsGiven :=
  ⟨fun _ _ _ => ⟨rfl, rfl, Frame.read_nil, rfl, rfl, rfl⟩, rfl, rfl, rfl⟩

end Sys2Proof.Machine
end

section
/-! What a step leaves of the palette device's state (R19), of the history (R23) and of the configuration (R9). -/

namespace Sys2Proof.Machine

/-! ### The device's state -/

theorem whenBacked_pal {index : Nat} {k : State → State} {s : State} (hk : (k s).pal = s.pal) :
    (whenBacked index k s).pal = s.pal := by
  rcases whenBacked_cases index k s with ⟨-, e⟩ | ⟨-, e⟩
  · rw [e, State.raise_pal]
  · rw [e, hk]

/-- Only the palette window reaches the device's state (R19). -/
theorem execOn_pal {dev : PaletteDevice} {i : Instr} {s t : State} (hx : execOn dev i s = .next t) :
    t.pal = s.pal ∨ (∃ o, i = .palRd o ∧ t.pal = (dev.palRead s.pal (translateOffset o)).2) ∨
      ∃ o d, i = .palWr o d ∧ t.pal = dev.palWrite s.pal (translateOffset o) d := by
  obtain ⟨-, ht⟩ := execOn_cases hx
  cases i with
  | palRd offset =>
    cases ht
    exact .inr (.inl ⟨offset, rfl, rfl⟩)
  | palWr offset data =>
    cases ht
    exact .inr (.inr ⟨offset, data, rfl, rfl⟩)
  | rasterLine scanline rowaddr coladdr heblnk hsblnk =>
    obtain ⟨-, ⟨-, rfl⟩ | ⟨-, rfl⟩⟩ := ht
    · exact .inl ((runLine_keeps_fields dev _ _).2.2.1.trans (startLine_keeps _ s).2.2.1)
    · exact .inl (startLine_keeps _ s).2.2.1
  | irqAck level =>
    cases ht
    exact .inl rfl
  | vramRd index =>
    cases ht
    exact .inl (whenBacked_pal rfl)
  | vramWr index value be =>
    cases ht
    exact .inl (whenBacked_pal rfl)

/-- Settles O34: a step on a line or a reserved kind leaves the device's state alone, and so does every operation outside
the palette window. -/
theorem deviceStateChangesOnlyThroughItsWindow : Obligations.DeviceStateChangesOnlyThroughItsWindow := by
  intro s t hs
  obtain ⟨-, idle | advance | issue | reserved⟩ := stepOn_cases (step_eq_stepOn s ▸ hs)
  · obtain ⟨-, -, rfl⟩ := idle
    exact .inl (advanceLine_keeps _ s).2.2.1
  · obtain ⟨rest, -, -, rfl⟩ := advance
    exact .inl (advanceLine_keeps _ (s.setSchedule rest)).2.2.1
  · obtain ⟨r, rest, i, hr, hd, hx⟩ := issue
    rcases execOn_pal hx with same | ⟨o, rfl, read⟩ | ⟨o, d, rfl, write⟩
    · exact .inl same
    · exact .inr (.inl ⟨r, rest, o, hr, hd, read⟩)
    · exact .inr (.inr ⟨r, rest, o, d, hr, hd, write⟩)
  · obtain ⟨r, rest, k, -, -, rfl⟩ := reserved
    exact .inl rfl

/-! ### The history and the configuration -/

/-- The configuration is the same (R9), and the history is the same or one event longer (R23). -/
def AddsAtMostOneEvent (s t : State) : Prop :=
  t.cfg = s.cfg ∧ (t.events = s.events ∨ ∃ e, t.events = s.events ++ [e])

/-- A step of a line records an event only by ending the line (R53, R66). -/
theorem advanceLine_events (dev : PaletteDevice) (s : State) :
    (advanceLine dev s).events = s.events ∨
      ((advanceLine dev s).line = none ∧ ∃ e, (advanceLine dev s).events = s.events ++ [e]) := by
  rcases advanceLine_cases dev s with ⟨-, e⟩ | ⟨q, -, -, e⟩ | ⟨q, -, -, e⟩
  · exact .inl (by rw [e])
  · exact .inl (by rw [e]; exact (pairStep_keeps dev q s).2.2.2.2)
  · exact .inr (by rw [e]; exact ⟨rfl, _, rfl⟩)

theorem advanceLine_adds (dev : PaletteDevice) (s : State) : AddsAtMostOneEvent s (advanceLine dev s) :=
  ⟨(advanceLine_keeps dev s).1, (advanceLine_events dev s).imp_right And.right⟩

/-- A run of a line's steps records one event at most: the step that records it ends the line, and what follows leaves the
state as it is. -/
theorem runLine_events (dev : PaletteDevice) (n : Nat) (s : State) :
    (runLine dev n s).events = s.events ∨ ∃ e, (runLine dev n s).events = s.events ++ [e] := by
  induction n generalizing s with
  | zero => exact .inl rfl
  | succ n ih =>
    rw [runLine]
    rcases advanceLine_events dev s with he | ⟨hl, he⟩
    · rw [← he]
      exact ih _
    · rw [runLine_none hl]
      exact .inr he

theorem whenBacked_adds {index : Nat} {k : State → State} {s : State} (hk : AddsAtMostOneEvent s (k s)) :
    AddsAtMostOneEvent s (whenBacked index k s) := by
  rcases whenBacked_cases index k s with ⟨-, e⟩ | ⟨-, e⟩
  · rw [e]
    exact ⟨rfl, .inl rfl⟩
  · rwa [e]

/-- Every operation keeps the configuration and records one event at most. -/
theorem execOn_adds {dev : PaletteDevice} {i : Instr} {s t : State} (hx : execOn dev i s = .next t) :
    AddsAtMostOneEvent s t := by
  obtain ⟨-, ht⟩ := execOn_cases hx
  cases i with
  | palRd offset =>
    cases ht
    exact ⟨rfl, .inr ⟨_, rfl⟩⟩
  | palWr offset data =>
    cases ht
    exact ⟨rfl, .inr ⟨_, rfl⟩⟩
  | rasterLine scanline rowaddr coladdr heblnk hsblnk =>
    obtain ⟨hc, -, -, -, -, he⟩ := startLine_keeps ⟨scanline, rowaddr, coladdr, heblnk, hsblnk⟩ s
    obtain ⟨-, ⟨-, rfl⟩ | ⟨-, rfl⟩⟩ := ht
    · exact ⟨(runLine_keeps_fields dev _ _).1.trans hc, he ▸ runLine_events dev _ _⟩
    · exact ⟨hc, .inl he⟩
  | irqAck level =>
    cases ht
    exact ⟨rfl, .inr ⟨_, rfl⟩⟩
  | vramRd index =>
    cases ht
    exact whenBacked_adds ⟨rfl, .inr ⟨_, rfl⟩⟩
  | vramWr index value be =>
    cases ht
    exact whenBacked_adds ⟨rfl, .inr ⟨_, rfl⟩⟩

/-- Settles O37: each move of the driver records one event at most. -/
theorem historyOnlyGrows : Obligations.HistoryOnlyGrows := by
  intro s t hs
  obtain ⟨-, idle | advance | issue | reserved⟩ := stepOn_cases (step_eq_stepOn s ▸ hs)
  · obtain ⟨-, -, rfl⟩ := idle
    exact advanceLine_adds _ s
  · obtain ⟨rest, -, -, rfl⟩ := advance
    exact advanceLine_adds _ (s.setSchedule rest)
  · obtain ⟨r, rest, i, -, -, hx⟩ := issue
    exact execOn_adds (s := s.setSchedule rest) hx
  · obtain ⟨r, rest, k, -, -, rfl⟩ := reserved
    exact ⟨rfl, .inl rfl⟩

end Sys2Proof.Machine
end

section
/-! The rasterizer's reach (R32): every word a RASTER_LINE reads lies below 0x40000, so an extent that covers the reach
leaves its pair steps no word to fault on. State.Covered is what a line keeps of this from step to step. -/

namespace Sys2Proof.Machine

/-- A row base and a column make a word index below the reach (R43, R54, R55). -/
theorem wordIndex_rowBase_lt (rowaddr cursor : Nat) : wordIndex (rowBase rowaddr) cursor < 0x40000 := by
  have hrow : rowBase rowaddr ≤ rowMask := Nat.and_le_right
  have hcol : column cursor ≤ colMask := Nat.and_le_right
  unfold wordIndex
  simp only [rowMask, colMask] at hrow hcol
  omega

/-- The extent covers the reach, and no VramOutOfRange is recorded. -/
structure State.Covered (s : State) : Prop where
  inv : s.MidStepInv
  covers : s.cfg.coversReach = true
  notOutOfRange : ∀ i, s.fault ≠ some (.vramOutOfRange i)

theorem State.Inv.covered {s : State} (h : s.Inv) (hf : s.fault = none) (hc : s.cfg.coversReach = true) : s.Covered where
  inv := h.toMidStepInv
  covers := hc
  notOutOfRange := by simp [hf]

/-- The word of the next pair is backed. -/
theorem State.Covered.wordIndex_lt {s : State} (h : s.Covered) {q : LineProgress} (hq : s.line = some q) :
    wordIndex q.base q.cursor < s.cfg.vramWords := by
  obtain ⟨-, hbase, -⟩ := h.inv.lineInv q hq
  have hreach : 0x40000 ≤ s.cfg.vramWords := of_decide_eq_true h.covers
  rw [hbase]
  exact Nat.lt_of_lt_of_le (wordIndex_rowBase_lt _ _) hreach

theorem State.Covered.pairStep_notOutOfRange {s : State} (h : s.Covered) (dev : PaletteDevice) {q : LineProgress}
    (hq : s.line = some q) (i : Nat) : (pairStep dev q s).fault ≠ some (.vramOutOfRange i) := by
  rcases pairStep_cases dev q s with ⟨hv, -⟩ | ⟨-, -, e⟩ | ⟨-, -, -, e⟩ | ⟨-, -, e⟩
  · exact absurd (h.wordIndex_lt hq) (Nat.not_lt.mpr hv)
  · simp [e]
  · simp [e]
  · rw [e]
    exact h.notOutOfRange i

theorem State.Covered.startLine {s : State} (h : s.Covered) (p : RasterParams) : (startLine p s).Covered where
  inv := h.inv.startLine p
  covers := (startLine_keeps p s).1 ▸ h.covers
  notOutOfRange i := by
    rcases startLine_cases p s with ⟨-, e⟩ | ⟨-, e⟩
    · simp [e]
    · rw [e]
      exact h.notOutOfRange i

theorem State.Covered.advanceLine {s : State} (h : s.Covered) (dev : PaletteDevice) : (advanceLine dev s).Covered where
  inv := h.inv.advanceLine dev
  covers := (advanceLine_keeps dev s).1 ▸ h.covers
  notOutOfRange i := by
    rcases advanceLine_cases dev s with ⟨-, e⟩ | ⟨q, hq, -, e⟩ | ⟨q, -, -, e⟩
    · rw [e]
      exact h.notOutOfRange i
    · rw [e]
      exact h.pairStep_notOutOfRange dev hq i
    · rw [e]
      exact h.notOutOfRange i

theorem State.Covered.runLine {s : State} (h : s.Covered) (dev : PaletteDevice) (n : Nat) : (runLine dev n s).Covered :=
  runLine_keeps (fun _ ht => ht.advanceLine dev) n h

/-- A RASTER_LINE keeps the extent covering and records no VramOutOfRange, on any device and under either granularity. -/
theorem State.Covered.execOn_rasterOf {s t : State} (h : s.Covered) {dev : PaletteDevice} {p : RasterParams}
    (hx : execOn dev (rasterOf p) s = .next t) : t.Covered := by
  obtain ⟨-, -, ⟨-, rfl⟩ | ⟨-, rfl⟩⟩ := execOn_cases hx
  · exact (h.startLine p).runLine dev _
  · exact h.startLine p

/-- Settles O23: the invariant puts the line partly done, if any, at a word of its row. -/
theorem coveredReachNeverFaults : Obligations.CoveredReachNeverFaults := by
  intro s i hinv hf hc
  have h : s.Covered := hinv.covered hf hc
  refine ⟨fun p t hx => ?_, (h.advanceLine Config.palette).notOutOfRange i⟩
  rw [exec_eq_execOn] at hx
  exact (h.execOn_rasterOf hx).notOutOfRange i

end Sys2Proof.Machine
end

section
/-! What an operation and a step of the machine can change of VRAM and of the output lines (R36, R37). -/

namespace Sys2Proof.Machine

/-- A part of the state that neither the range check's fault nor the access changes (R69, R70, R73). -/
theorem whenBacked_keeps {α : Type} (part : State → α) {index : Nat} {k : State → State} {s : State}
    (hraise : part (s.raise (.vramOutOfRange index)) = part s) (hk : part (k s) = part s) :
    part (whenBacked index k s) = part s := by
  rcases whenBacked_cases index k s with ⟨-, e⟩ | ⟨-, e⟩
  · rw [e, hraise]
  · rw [e, hk]

/-! ### VRAM -/

/-- Only VRAM_WR writes VRAM, and only the one word of its index (R37, R70). -/
theorem execOn_vram {dev : PaletteDevice} {i : Instr} {s t : State} (hx : execOn dev i s = .next t) :
    t.vram = s.vram ∨ ∃ j v be, i = .vramWr j v be ∧ j < s.cfg.vramWords ∧
      t.vram = Memory.writeWord s.vram j (mergeWord (Memory.readWord s.vram j) v be) := by
  obtain ⟨-, ht⟩ := execOn_cases hx
  cases i with
  | palRd offset =>
    cases ht
    exact .inl rfl
  | palWr offset data =>
    cases ht
    exact .inl rfl
  | rasterLine scanline rowaddr coladdr heblnk hsblnk =>
    obtain ⟨-, ⟨-, rfl⟩ | ⟨-, rfl⟩⟩ := ht
    · exact .inl ((runLine_keeps_fields dev _ _).2.1.trans (startLine_keeps _ s).2.1)
    · exact .inl (startLine_keeps _ s).2.1
  | irqAck level =>
    cases ht
    exact .inl rfl
  | vramRd index =>
    cases ht
    exact .inl (whenBacked_keeps State.vram rfl rfl)
  | vramWr index value be =>
    cases ht
    rcases whenBacked_cases index (vramWrite index value be) s with ⟨-, e⟩ | ⟨hi, e⟩
    · exact .inl (by rw [e]; rfl)
    · exact .inr ⟨index, value, be, rfl, hi, by rw [e]; rfl⟩

/-- Settles O35: the steps of a line and a reserved kind leave VRAM alone, and a VRAM_WR issued leaves every word but its
own. -/
theorem vramChangesOnlyByVramWr : Obligations.VramChangesOnlyByVramWr := by
  intro s t hs j
  obtain ⟨-, idle | advance | issue | reserved⟩ := stepOn_cases (step_eq_stepOn s ▸ hs)
  · obtain ⟨-, -, rfl⟩ := idle
    exact .inl (by rw [(advanceLine_keeps _ s).2.1])
  · obtain ⟨rest, -, -, rfl⟩ := advance
    exact .inl (by rw [(advanceLine_keeps _ _).2.1, State.setSchedule_vram])
  · obtain ⟨r, rest, i, hr, hd, hx⟩ := issue
    rcases execOn_vram hx with same | ⟨k, v, be, rfl, hk, write⟩
    · exact .inl (by rw [same, State.setSchedule_vram])
    · by_cases hj : j = k
      · subst hj
        exact .inr ⟨r, rest, v, be, hr, hd, hk, by rw [write, Memory.readWord_writeWord_same, State.setSchedule_vram]⟩
      · exact .inl (by rw [write, Memory.readWord_writeWord_other hj, State.setSchedule_vram])
  · obtain ⟨r, rest, k, -, -, rfl⟩ := reserved
    exact .inl rfl

/-! ### The output lines -/

/-- A line that a first step starts stands at its own first pair (R53). -/
theorem startLine_line {p : RasterParams} {s : State} (hl : s.line = none) {q : LineProgress}
    (hq : (startLine p s).line = some q) :
    q = { params := p, base := rowBase p.rowaddr, cursor := p.coladdr, x := p.heblnk } := by
  rcases startLine_cases p s with ⟨-, e⟩ | ⟨-, e⟩
  · simp [e, hl] at hq
  · rw [e] at hq
    exact (Option.some.inj hq).symm

/-- A line that is still partly done after a step of its own has moved on by one pair of its span (R55, R56). -/
theorem advanceLine_line {dev : PaletteDevice} {s : State} {q' : LineProgress} (h : (advanceLine dev s).line = some q') :
    ∃ q, s.line = some q ∧ q.x < q.params.hsblnk ∧ q' = { q with cursor := q.cursor + 1, x := q.x + 2 } := by
  rcases advanceLine_cases dev s with ⟨hl, e⟩ | ⟨q, hq, hx, e⟩ | ⟨q, -, -, e⟩
  · simp [e, hl] at h
  · rcases pairStep_line dev q s with ⟨hl, -⟩ | ⟨hl, -⟩
    · simp [e, hl] at h
    · rw [e, hl] at h
      exact ⟨q, hq, hx, (Option.some.inj h).symm⟩
  · simp [e, finishLine] at h

/-- A run of a line's steps changes no pixel but those of the pairs the line has left (R56, R59). -/
theorem runLine_read (dev : PaletteDevice) (n : Nat) (s : State) (m x : Nat) :
    Frame.read (runLine dev n s).frame m x = Frame.read s.frame m x ∨
      ∃ q, s.line = some q ∧ q.params.scanline = m ∧ q.x ≤ x ∧ x < q.x + 2 * pairCount q.x q.params.hsblnk := by
  induction n generalizing s with
  | zero => exact .inl rfl
  | succ n ih =>
    rw [runLine]
    rcases ih (advanceLine dev s) with same | ⟨q', hq', hm, hlo, hhi⟩
    · rw [same]
      refine (advanceLine_read dev s m x).imp_right fun ⟨q, hq, hm, hx, hpair⟩ => ⟨q, hq, hm, ?_⟩
      have left := pairCount_eq_succ hx
      omega
    · obtain ⟨q, hq, hx, rfl⟩ := advanceLine_line hq'
      have left := pairCount_eq_succ hx
      dsimp only at hlo hhi
      exact .inr ⟨q, hq, hm, by omega, by omega⟩

/-- Of the operations only a RASTER_LINE under `line` changes a pixel, and only one of its own pairs (R37, R59, R64); under
`pair` it only starts. -/
theorem execOn_read {dev : PaletteDevice} {i : Instr} {s t : State} (hx : execOn dev i s = .next t) (m x : Nat) :
    Frame.read t.frame m x = Frame.read s.frame m x ∨
      ∃ p, i = rasterOf p ∧ s.cfg.granularity = .line ∧ p.scanline = m ∧ p.heblnk ≤ x ∧
        x < p.heblnk + 2 * pairCount p.heblnk p.hsblnk := by
  obtain ⟨-, ht⟩ := execOn_cases hx
  cases i with
  | palRd offset =>
    cases ht
    exact .inl rfl
  | palWr offset data =>
    cases ht
    exact .inl rfl
  | rasterLine scanline rowaddr coladdr heblnk hsblnk =>
    obtain ⟨-, -, -, hframe, -⟩ := startLine_keeps ⟨scanline, rowaddr, coladdr, heblnk, hsblnk⟩ s
    obtain ⟨hl, ⟨hg, rfl⟩ | ⟨-, rfl⟩⟩ := ht
    · rw [← hframe]
      refine (runLine_read dev _ _ m x).imp_right fun ⟨q, hq, hm, hspan⟩ => ?_
      obtain rfl := startLine_line hl hq
      exact ⟨_, rfl, hg, hm, hspan⟩
    · exact .inl (by rw [hframe])
  | irqAck level =>
    cases ht
    exact .inl rfl
  | vramRd index =>
    cases ht
    exact .inl (by rw [whenBacked_keeps State.frame rfl rfl])
  | vramWr index value be =>
    cases ht
    exact .inl (by rw [whenBacked_keeps State.frame rfl rfl])

/-- Settles O36: a line carried on draws at most its next pair, an operation issued draws only as a whole RASTER_LINE, and a
reserved kind draws nothing. -/
theorem pixelsChangeOnlyByRasterLine : Obligations.PixelsChangeOnlyByRasterLine := by
  intro s t hs m x
  obtain ⟨-, idle | advance | issue | reserved⟩ := stepOn_cases (step_eq_stepOn s ▸ hs)
  · obtain ⟨hidle, -, rfl⟩ := idle
    exact (advanceLine_read _ s m x).imp_right fun ⟨q, hq, hpair⟩ => .inl ⟨q, hq, .inl hidle, hpair⟩
  · obtain ⟨rest, hadv, -, rfl⟩ := advance
    exact (advanceLine_read _ (s.setSchedule rest) m x).imp_right fun ⟨q, hq, hpair⟩ =>
      .inl ⟨q, hq, .inr ⟨rest, hadv⟩, hpair⟩
  · obtain ⟨r, rest, i, hr, hd, hx⟩ := issue
    refine (execOn_read hx m x).imp_right fun ⟨p, hp, hg, hspan⟩ => .inr ⟨r, rest, p, hr, ?_, hg, hspan⟩
    rw [hd, hp]
  · obtain ⟨r, rest, k, -, -, rfl⟩ := reserved
    exact .inl rfl

end Sys2Proof.Machine
end

section
/-! The decoder of operation records (R38, R39, R44, R45). A record is decoded through the kind of its code, the absence of
foreign fields and the presence of its own; so the decoder accepts the encodings of the operations, up to the default byte
enables of VRAM_WR (log entry 12), and nothing else. -/

namespace Sys2Proof

/-! ### Kind codes -/

/-- The kind code of a kind (R39), the inverse of Kind.ofCode. -/
def Kind.code : Kind → BitVec 3
  | .palRd => 0b000#3
  | .palWr => 0b001#3
  | .rasterLine => 0b010#3
  | .irqAck => 0b011#3
  | .vramRd => 0b100#3
  | .vramWr => 0b101#3

theorem Kind.ofCode_eq_some_iff {c : BitVec 3} {k : Kind} : Kind.ofCode c = some k ↔ c = k.code := by
  revert c
  cases k <;> decide

/-- The codes 0b110 and 0b111 name no kind (R44). -/
theorem Kind.ofCode_reserved {c : BitVec 3} (h : c = 0b110#3 ∨ c = 0b111#3) : Kind.ofCode c = none := by
  rcases h with rfl | rfl <;> rfl

/-! ### The default byte enables -/

theorem OpRecord.withDefaults_of_vramWr {r : OpRecord} (h : Kind.ofCode r.kind = some .vramWr) :
    r.withDefaults = { r with be := some (r.be.getD 3#2) } := by
  simp only [OpRecord.withDefaults, h]

theorem OpRecord.withDefaults_of_ne {r : OpRecord} (h : Kind.ofCode r.kind ≠ some .vramWr) : r.withDefaults = r := by
  unfold OpRecord.withDefaults
  split
  · next hk => exact absurd hk h
  · rfl

@[simp] theorem OpRecord.withDefaults_kind (r : OpRecord) : r.withDefaults.kind = r.kind := by
  by_cases h : Kind.ofCode r.kind = some .vramWr
  · rw [withDefaults_of_vramWr h]
  · rw [withDefaults_of_ne h]

@[simp] theorem OpRecord.withDefaults_withDefaults (r : OpRecord) : r.withDefaults.withDefaults = r.withDefaults := by
  by_cases h : Kind.ofCode r.kind = some .vramWr
  · rw [withDefaults_of_vramWr (r := r.withDefaults) (by simpa using h), withDefaults_of_vramWr h]
    rfl
  · rw [withDefaults_of_ne h, withDefaults_of_ne h]

/-! ### Foreign fields and fields of the kind -/

theorem firstForeign_eq_none_iff {r : OpRecord} {k : Kind} : firstForeign r k = none ↔ r.noForeign k = true := by
  simp only [firstForeign, OpRecord.noForeign, List.find?_eq_none, List.all_eq_true, Bool.not_eq_true]
  refine forall₂_congr fun f _ => ?_
  cases r.has f <;> simp

/-- The default fills in a field of the record's own kind. -/
theorem firstForeign_withDefaults {r : OpRecord} {k : Kind} (h : Kind.ofCode r.kind = some k) :
    firstForeign r.withDefaults k = firstForeign r k := by
  by_cases hk : k = .vramWr
  · subst hk
    rw [OpRecord.withDefaults_of_vramWr h]
    simp [firstForeign, Field.all, Kind.fields, OpRecord.has, List.find?]
  · rw [OpRecord.withDefaults_of_ne (by simpa [h] using hk)]

/-- A required field is read exactly when it is there. -/
theorem need_bind_eq_ok_iff {α : Type} {f : Field} {o : Option α} {g : α → Except DecodeError Instr} {i : Instr} :
    (need f o >>= g) = .ok i ↔ ∃ v, o = some v ∧ g v = .ok i := by
  cases o with
  | none => simp [need, bind, Except.bind]
  | some v => simp [need, bind, Except.bind]

/-- What the fields of a kind decode to, by kind (R38). -/
theorem decodeFields_eq_ok_iff {r : OpRecord} {k : Kind} {i : Instr} :
    decodeFields r k = .ok i ↔
      match k with
      | .palRd => ∃ o, r.offset = some o ∧ .palRd o = i
      | .palWr => ∃ o, r.offset = some o ∧ ∃ d, r.data = some d ∧ .palWr o d = i
      | .rasterLine =>
        ∃ n, r.scanline = some n ∧ ∃ row, r.rowaddr = some row ∧ ∃ col, r.coladdr = some col ∧
          ∃ he, r.heblnk = some he ∧ ∃ hs, r.hsblnk = some hs ∧ .rasterLine n row col he hs = i
      | .irqAck => ∃ l, r.level = some l ∧ .irqAck l = i
      | .vramRd => ∃ j, r.index = some j ∧ .vramRd j = i
      | .vramWr => ∃ j, r.index = some j ∧ ∃ v, r.value = some v ∧ ∃ b, r.be = some b ∧ .vramWr j v b = i := by
  cases k <;> simp [decodeFields, need_bind_eq_ok_iff, pure, Except.pure]

/-- The fields of a kind decode exactly when the record holds all of them (R38). -/
theorem exists_decodeFields_eq_ok_iff {r : OpRecord} {k : Kind} :
    (∃ i, decodeFields r k = .ok i) ↔ r.complete k = true := by
  simp only [decodeFields_eq_ok_iff]
  cases k <;> simp [OpRecord.complete, Kind.fields, OpRecord.has, Option.isSome_iff_exists]

/-- A record that holds fields of its kind only is the encoding of the operation they decode to. -/
theorem eq_encode_of_decodeFields {r : OpRecord} {k : Kind} {i : Instr} (hk : Kind.ofCode r.kind = some k)
    (hf : r.noForeign k = true) (hd : decodeFields r k = .ok i) : r = encode i := by
  rw [Kind.ofCode_eq_some_iff] at hk
  rw [decodeFields_eq_ok_iff] at hd
  cases r
  cases k
  case' palRd => obtain ⟨o, ho, rfl⟩ := hd
  case' palWr => obtain ⟨o, ho, d, hdata, rfl⟩ := hd
  case' rasterLine => obtain ⟨n, hn, row, hrow, col, hcol, he, hhe, hs, hhs, rfl⟩ := hd
  case' irqAck => obtain ⟨l, hl, rfl⟩ := hd
  case' vramRd => obtain ⟨j, hj, rfl⟩ := hd
  case' vramWr => obtain ⟨j, hj, v, hv, b, hb, rfl⟩ := hd
  all_goals simp_all [OpRecord.noForeign, Field.all, Kind.fields, OpRecord.has, encode, Kind.code, kindCode]

/-! ### The whole decoder -/

/-- A record decodes through its kind, the absence of foreign fields and its own fields (R38, R74). -/
theorem decode_eq_ok_iff {r : OpRecord} {i : Instr} :
    decode r = .ok i ↔
      ∃ k, Kind.ofCode r.kind = some k ∧ firstForeign r k = none ∧ decodeFields r.withDefaults k = .ok i := by
  unfold decode
  cases hk : Kind.ofCode r.kind with
  | none => simp
  | some k => cases hf : firstForeign r k <;> simp [hf]

/-- Filling in the default byte enables does not change what a record decodes to. -/
theorem decode_withDefaults (r : OpRecord) : decode r.withDefaults = decode r := by
  simp only [decode, OpRecord.withDefaults_kind, OpRecord.withDefaults_withDefaults]
  cases hk : Kind.ofCode r.kind with
  | none => rfl
  | some k => simp only [firstForeign_withDefaults hk]

/-- Decoding inverts encoding. -/
theorem decode_encode (i : Instr) : decode (encode i) = .ok i := by
  cases i <;> rfl

/-- An encoded operation is a well-formed record (R38, R39, R45). -/
theorem wellFormed_encode (i : Instr) : (encode i).wellFormed = true := by
  cases i with
  | palRd offset => exact Laws.RecordFields.palRd offset
  | palWr offset data => exact Laws.RecordFields.palWr offset data
  | rasterLine scanline rowaddr coladdr heblnk hsblnk =>
    exact Laws.RecordFields.rasterLine scanline rowaddr coladdr heblnk hsblnk
  | irqAck level => exact Laws.RecordFields.irqAck level
  | vramRd index => exact Laws.RecordFields.vramRd index
  | vramWr index value be => exact Laws.RecordFields.vramWr index value be

theorem OpRecord.wellFormed_iff {r : OpRecord} :
    r.wellFormed = true ↔ ∃ k, Kind.ofCode r.kind = some k ∧ r.complete k = true ∧ r.noForeign k = true := by
  unfold wellFormed
  cases Kind.ofCode r.kind <;> simp

/-- Settles O43: what the decoder lets through is an encoding (eq_encode_of_decodeFields), and an encoding decodes to its
operation (decode_encode). -/
theorem decodeInvertsEncode : Obligations.DecodeInvertsEncode := by
  intro r i
  constructor
  · intro h
    obtain ⟨k, hk, hf, hd⟩ := decode_eq_ok_iff.mp h
    rw [← firstForeign_withDefaults hk, firstForeign_eq_none_iff] at hf
    exact eq_encode_of_decodeFields (by rwa [OpRecord.withDefaults_kind]) hf hd
  · intro h
    rw [← decode_withDefaults, h, decode_encode]

/-- Settles O44: what decodes is an encoding (O43), and the fields of a well-formed record decode. -/
theorem decodeAcceptsWellFormedRecords : Obligations.DecodeAcceptsWellFormedRecords := by
  intro r
  constructor
  · rintro ⟨i, h⟩
    rw [(decodeInvertsEncode r i).mp h]
    exact wellFormed_encode i
  · intro h
    obtain ⟨k, hk, hc, hf⟩ := OpRecord.wellFormed_iff.mp h
    obtain ⟨i, hd⟩ := exists_decodeFields_eq_ok_iff.mpr hc
    refine ⟨i, ?_⟩
    rw [← decode_withDefaults, decode_eq_ok_iff]
    exact ⟨k, hk, firstForeign_eq_none_iff.mpr hf, by rwa [OpRecord.withDefaults_withDefaults]⟩

/-- Settles O45: the records are encodings, written out. -/
theorem specRecordsDecode : Obligations.SpecRecordsDecode :=
  ⟨decode_encode (.palRd 0xC000#16), decode_encode (.palWr 0x8000#16 ⟨0x5A⟩),
    decode_encode (.rasterLine 2 0x7FF 0x2FF 10 14), decode_encode (.irqAck 1#1), decode_encode (.vramRd 1),
    decode_encode (.vramWr 0x3FF00 0x0500#16 0b10#2)⟩

/-- A reserved kind is refused whatever fields the record holds, since the kind is checked first (R44, R74). -/
theorem decode_reservedKind {r : OpRecord} (h : Kind.ofCode r.kind = none) : decode r = .error (.reservedKind r.kind) := by
  simp only [decode, h]

end Sys2Proof

namespace Sys2Proof.Machine

/-- Issuing a record of a reserved kind raises its fault (R44, R72). -/
theorem issueRecord_reservedKind {run : Instr → State → Host.Outcome State Fault Refusal} {r : OpRecord}
    (h : Kind.ofCode r.kind = none) (s : State) : issueRecord run r s = .next (s.raise (.reservedKind r.kind)) := by
  simp only [issueRecord, decode_reservedKind h]

/-- Settles O39: the step issues the record (R33), whose kind code names no kind. -/
theorem reservedKindsFault : Obligations.ReservedKindsFault := by
  intro r rest s hf hs hkind
  calc step s = issueRecord exec r (s.setSchedule rest) := driverStep_of_issue hf hs
    _ = .next ((s.setSchedule rest).raise (.reservedKind r.kind)) :=
      issueRecord_reservedKind (Kind.ofCode_reserved hkind) _

end Sys2Proof.Machine
end

section
/-! The operand forms of the encoding: the palette-window offset (R40 to R42), the rasterizer's word index (R43) and the
pseudo-instructions (R46). -/

namespace Sys2Proof.Machine

/-! ### The register address decoder -/

/-- The decoder looks at no bit of an offset but o[15:12] (R40). -/
theorem translateOffset_congr {o o' : Offset} (h : o.extractLsb' 12 4 = o'.extractLsb' 12 4) :
    translateOffset o = translateOffset o' := by
  have shifted : ∀ o : Offset, (o >>> palShift).setWidth 4 = o.extractLsb' 12 4 := fun _ => rfl
  simp only [translateOffset, shifted, h]

/-- A line of an offset is a line of its top four bits (R40). -/
theorem Offset.line_eq_top (o : Offset) {i : Nat} (hi : i < 4) :
    o.extractLsb' (12 + i) 1 = (o.extractLsb' 12 4).extractLsb' i 1 := by
  ext j hj
  obtain rfl : j = 0 := by omega
  simp [hi]

/-- The closed form too reads o[15:12] alone (R42). -/
theorem translateClosedForm_congr {o o' : Offset} (h : o.extractLsb' 12 4 = o'.extractLsb' 12 4) :
    translateClosedForm o = translateClosedForm o' := by
  have rs0 (o : Offset) : Offset.rs0 o = (o.extractLsb' 12 4).extractLsb' 0 1 := Offset.line_eq_top o (i := 0) (by decide)
  have rs1 (o : Offset) : Offset.rs1 o = (o.extractLsb' 12 4).extractLsb' 1 1 := Offset.line_eq_top o (i := 1) (by decide)
  have rs2 (o : Offset) : Offset.rs2 o = (o.extractLsb' 12 4).extractLsb' 3 1 := Offset.line_eq_top o (i := 3) (by decide)
  simp only [translateClosedForm, rs0, rs1, rs2, h]

/-- The low twelve bits of an offset do not matter (R40). -/
theorem translateOffset_append (n : BitVec 4) (low : BitVec 12) :
    translateOffset (n ++ low) = translateOffset (n ++ 0#12) :=
  translateOffset_congr (BitVec.extractLsb'_append_eq_left.trans BitVec.extractLsb'_append_eq_left.symm)

/-- The decoder equals its closed form (R42): both read o[15:12] alone, and agree on its sixteen values. -/
theorem translateOffset_eq_closedForm (o : Offset) : translateOffset o = translateClosedForm o := by
  have top : o.extractLsb' 12 4 = (o.extractLsb' 12 4 ++ 0#12 : Offset).extractLsb' 12 4 :=
    BitVec.extractLsb'_append_eq_left.symm
  have agree : ∀ n : BitVec 4, translateOffset (n ++ 0#12) = translateClosedForm (n ++ 0#12) := by decide
  calc translateOffset o = translateOffset (o.extractLsb' 12 4 ++ 0#12) := translateOffset_congr top
    _ = translateClosedForm (o.extractLsb' 12 4 ++ 0#12) := agree _
    _ = translateClosedForm o := translateClosedForm_congr top.symm

/-- The canonical offset of an index reaches it (R42). -/
theorem translateOffset_canon : ∀ r : BitVec 3, translateOffset (canon r) = r.setWidth 4 := by decide

/-- Settles O1: the decoder's closed form, and its value at the eight canonical offsets. -/
theorem translateEqualsClosedForm : Obligations.TranslateEqualsClosedForm :=
  ⟨translateOffset_eq_closedForm, translateOffset_eq_closedForm, fun _ => rfl, by decide, translateOffset_canon⟩

/-- Settles O3: the low twelve bits do not matter, and the sixteen values of o[15:12] are the table's rows. -/
theorem translateFollowsTheTable : Obligations.TranslateFollowsTheTable := by
  intro n low
  rw [translateOffset_append]
  revert n
  decide

/-! ### The rasterizer's word index -/

theorem rowBase_eq (rowaddr : Nat) : rowBase rowaddr = rowaddr % 1024 * 256 :=
  calc rowBase rowaddr = (rowaddr &&& 2 ^ 10 - 1) <<< 8 :=
      (Nat.shiftLeft_and_distrib (b := 2 ^ 10 - 1)).symm
    _ = rowaddr % 1024 * 256 := by rw [Nat.and_two_pow_sub_one_eq_mod, Nat.shiftLeft_eq]

theorem column_eq_mod (cursor : Nat) : column cursor = cursor % 256 :=
  Nat.and_two_pow_sub_one_eq_mod cursor 8

/-- A column fits below a row base, so that adding it carries nothing into the row (R43). -/
theorem wordIndex_eq_or (rowaddr cursor : Nat) :
    wordIndex (rowBase rowaddr) cursor = rowBase rowaddr ||| column cursor := by
  have hcol : column cursor < 2 ^ 8 := by
    rw [column_eq_mod]
    exact Nat.mod_lt _ (by decide)
  rw [wordIndex, rowBase_eq, Nat.mul_comm]
  exact Nat.two_pow_add_eq_or_of_lt hcol _

/-- Settles O10: a row base is a multiple of 256 and a column is below 256. -/
theorem wordIndexStaysInItsRow : Obligations.WordIndexStaysInItsRow := by
  intro rowaddr cursor
  have sum : wordIndex (rowBase rowaddr) cursor = rowBase rowaddr + cursor % 256 := by
    rw [wordIndex, column_eq_mod]
  have row : wordIndex (rowBase rowaddr) cursor / 256 = rowaddr % 1024 := by
    rw [sum, rowBase_eq]
    omega
  exact ⟨sum, wordIndex_eq_or rowaddr cursor, row, wordIndex_rowBase_lt rowaddr cursor⟩

/-! ### The assembler's lines -/

theorem sized_of_lt {w n : Nat} (h : n < 2 ^ w) : sized w n = some (BitVec.ofNat w n) := if_pos h

theorem sized_eq_none {w n : Nat} (h : 2 ^ w ≤ n) : sized w n = none := if_neg (Nat.not_lt.mpr h)

@[simp] theorem sized_toNat {w : Nat} (v : BitVec w) : sized w v.toNat = some v := by
  rw [sized_of_lt v.isLt, BitVec.ofNat_toNat, BitVec.setWidth_eq]

theorem expand_palRdr (r : BitVec 3) : AsmLine.expand (.palRdr r.toNat) = AsmLine.expand (.palRd (canon r).toNat) := by
  simp [AsmLine.expand, reachable]

theorem expand_palWrr (r : BitVec 3) (d : Nat) :
    AsmLine.expand (.palWrr r.toNat d) = AsmLine.expand (.palWr (canon r).toNat d) := by
  simp [AsmLine.expand, reachable]

/-- A register index above 7 is a syntax error (R46). -/
theorem reachable_eq_none {r : Nat} (h : 7 < r) : reachable r = none := sized_eq_none h

/-- A byte is the value of the word whose low lane it fills (R46). -/
theorem expand_vramWrl (index : Nat) {b : Nat} (h : b < 2 ^ 8) :
    AsmLine.expand (.vramWrl index b) = AsmLine.expand (.vramWr index b (some 0b01)) := by
  have word : (BitVec.ofNat 8 b).setWidth 16 = BitVec.ofNat 16 b := BitVec.setWidth_ofNat_of_le_of_lt (by decide) h
  have be : sized 2 0b01 = some 1#2 := rfl
  simp [AsmLine.expand, sized_of_lt h, sized_of_lt (show b < 2 ^ 16 by omega), word, be]

/-- A byte shifted to the high lane still fits a word (R46). -/
theorem expand_vramWrh (index : Nat) {b : Nat} (h : b < 2 ^ 8) :
    AsmLine.expand (.vramWrh index b) = AsmLine.expand (.vramWr index (b <<< 8) (some 0b10)) := by
  have fits : b <<< 8 < 2 ^ 16 := by
    rw [Nat.shiftLeft_eq]
    omega
  have word : (BitVec.ofNat 8 b).setWidth 16 <<< 8 = BitVec.ofNat 16 (b <<< 8) := by
    rw [BitVec.setWidth_ofNat_of_le_of_lt (by decide) h]
    apply BitVec.eq_of_toNat_eq
    simp [Nat.mod_eq_of_lt (show b < 65536 by omega)]
  have be : sized 2 0b10 = some 2#2 := rfl
  simp [AsmLine.expand, sized_of_lt h, sized_of_lt fits, word, be]

/-- Settles O46, one lemma per pseudo-instruction. -/
theorem pseudoInstructionsExpand : Obligations.PseudoInstructionsExpand := by
  refine ⟨fun r => ⟨expand_palRdr r, expand_palWrr r⟩, fun r hr => ?_, fun index b hb => ?_, fun _ _ => rfl⟩
  · simp [AsmLine.expand, reachable_eq_none hr]
  · have h : b < 2 ^ 8 := Nat.lt_succ_of_le hb
    exact ⟨expand_vramWrl index h, expand_vramWrh index h⟩

end Sys2Proof.Machine
end

section
/-! The palette window (R47 to R51): the decoder bit by bit, and PAL_RD and PAL_WR forwarded to the palette device. -/

namespace Sys2Proof.Machine

/-! ### The decoder bit by bit -/

/-- The lines a decoded index is made of (R40, R42): bits 0, 1 and 2 are o[12], o[13] and o[15], and bit 3 is clear. -/
theorem translateOffset_getLsbD (o : Offset) :
    (translateOffset o).getLsbD 0 = o.getLsbD 12 ∧ (translateOffset o).getLsbD 1 = o.getLsbD 13 ∧
      (translateOffset o).getLsbD 2 = o.getLsbD 15 ∧ (translateOffset o).getLsbD 3 = false := by
  rw [translateOffset_eq_closedForm]
  simp only [translateClosedForm, Offset.rs0, Offset.rs1, Offset.rs2, BitVec.getLsbD_setWidth, BitVec.getLsbD_append,
    BitVec.getLsbD_extractLsb']
  simp

/-- Two offsets reach the same register exactly when the three lines R40 reads agree (R50). -/
theorem translateOffset_eq_iff {o₁ o₂ : Offset} : translateOffset o₁ = translateOffset o₂ ↔
    o₁.getLsbD 15 = o₂.getLsbD 15 ∧ o₁.getLsbD 13 = o₂.getLsbD 13 ∧ o₁.getLsbD 12 = o₂.getLsbD 12 := by
  obtain ⟨a0, a1, a2, a3⟩ := translateOffset_getLsbD o₁
  obtain ⟨b0, b1, b2, b3⟩ := translateOffset_getLsbD o₂
  rw [← a0, ← a1, ← a2, ← b0, ← b1, ← b2]
  constructor
  · intro same
    simp only [same, and_self]
  · rintro ⟨same2, same1, same0⟩
    refine BitVec.eq_of_getLsbD_eq fun i hi => ?_
    match i, hi with
    | 0, _ => exact same0
    | 1, _ => exact same1
    | 2, _ => exact same2
    | 3, _ => exact a3.trans b3.symm

/-- The closed form is three bits wide (R42, R51). -/
theorem translateOffset_toNat_le (o : Offset) : (translateOffset o).toNat ≤ 7 := by
  rw [translateOffset_eq_closedForm, translateClosedForm, BitVec.toNat_setWidth_of_le (by decide)]
  exact Nat.le_of_lt_succ (BitVec.isLt _)

/-- Settles O2: the range is that of the closed form, and the swap is the decoder's own branch on bit 3. -/
theorem translateStaysBelowEight : Obligations.TranslateStaysBelowEight := by
  intro o
  obtain ⟨-, -, -, clear⟩ := translateOffset_getLsbD o
  exact ⟨translateOffset_toNat_le o, clear, fun swapped => if_pos swapped⟩

/-- Settles O6: the mask 0x4FFF leaves the three lines the decoder reads as they are. -/
theorem translateIgnoresUnusedBits : Obligations.TranslateIgnoresUnusedBits := by
  intro o m
  have kept : ∀ i, (0x4FFF#16).getLsbD i = false → (o ^^^ (m &&& 0x4FFF#16)).getLsbD i = o.getLsbD i := by
    intro i clear
    rw [BitVec.getLsbD_xor, BitVec.getLsbD_and, clear, Bool.and_false, Bool.xor_false]
  exact translateOffset_eq_iff.mpr ⟨kept 15 rfl, kept 13 rfl, kept 12 rfl⟩

/-! ### PAL_RD and PAL_WR -/

/-- Before any fault PAL_RD completes on every device, at every offset (R48). -/
theorem execOn_palRd {s : State} (hf : s.fault = none) (dev : PaletteDevice) (o : Offset) :
    execOn dev (.palRd o) s = .next (palReadOn dev o s) :=
  whenRunning_of_none hf

/-- Before any fault PAL_WR completes on every device, at every offset (R49). -/
theorem execOn_palWr {s : State} (hf : s.fault = none) (dev : PaletteDevice) (o : Offset) (d : PalData) :
    execOn dev (.palWr o d) s = .next (palWriteOn dev o d s) :=
  whenRunning_of_none hf

/-- What an operation returned stands in the event it recorded (R15). -/
@[simp] theorem State.lastReturned_emit (s : State) (e : Event) : (s.emit e).lastReturned = e.returned := by
  simp [State.lastReturned]

/-- PAL_RD returns what the device answers at the decoded register (R48). -/
@[simp] theorem palReadOn_lastReturned (dev : PaletteDevice) (o : Offset) (s : State) :
    (palReadOn dev o s).lastReturned = some (.palData (dev.palRead s.pal (translateOffset o)).1) :=
  State.lastReturned_emit _ _

@[simp] theorem palWriteOn_fault (dev : PaletteDevice) (o : Offset) (d : PalData) (s : State) :
    (palWriteOn dev o d s).fault = s.fault := rfl

/-- Settles O7: the next state and the value returned are those of PAL_RD on the machine's own device. -/
theorem palRdForwardsToTheDevice : Obligations.PalRdForwardsToTheDevice := by
  intro offset s hf
  refine ⟨palReadOn Config.palette offset s, ?_, rfl, palReadOn_lastReturned _ _ _⟩
  rw [exec_eq_execOn, execOn_palRd hf]

/-- Settles O8: the next state is that of PAL_WR on the machine's own device. -/
theorem palWrForwardsToTheDevice : Obligations.PalWrForwardsToTheDevice := by
  intro offset data s hf
  rw [exec_eq_execOn, execOn_palWr hf]
  rfl

/-- Settles O4: the read path decodes with the write path's decoder, in a state where the write left no fault. -/
theorem aliasesReachTheSameRegister : Obligations.AliasesReachTheSameRegister := by
  refine ⟨fun _ _ => translateOffset_eq_iff, fun dev o₁ o₂ d s hf same => ?_⟩
  have hf' : (palWriteOn dev o₁ d s).fault = none := by rw [palWriteOn_fault, hf]
  refine ⟨_, _, execOn_palWr hf dev o₁ d, execOn_palRd hf' dev o₂, rfl, ?_⟩
  rw [palReadOn_lastReturned, same]

/-- Settles O5: the read reaches the register that was written (O4), and the device kept the value there. -/
theorem aliasedReadBack : Obligations.AliasedReadBack := by
  intro dev o₁ o₂ d s keeps hf h15 h13 h12
  obtain ⟨-, readsWritten⟩ := aliasesReachTheSameRegister
  obtain ⟨t, u, write, read, written, returned⟩ :=
    readsWritten dev o₁ o₂ d s hf (translateOffset_eq_iff.mpr ⟨h15, h13, h12⟩)
  exact ⟨t, u, write, read, by rw [returned, written, keeps]⟩

end Sys2Proof.Machine
end

section
/-! RASTER_LINE and its steps on any device, an equation per case (R53, R56, R57, R66), and the addresses they use (R54,
R55). -/

namespace Sys2Proof.Machine

/-! ### Addresses -/

/-- Settles O9: the row base is a row number below 1024, times 256. -/
theorem rowBaseSelectsOneOf1024Rows : Obligations.RowBaseSelectsOneOf1024Rows := by
  intro rowaddr
  have closed : rowBase rowaddr = rowaddr % 1024 * 256 := rowBase_eq rowaddr
  have top : rowBase rowaddr ≤ 0x3FF00 := Nat.and_le_right
  refine ⟨rfl, closed, closed ▸ Nat.dvd_mul_left _ _, top, fun cfg hcfg => ?_⟩
  have reach : 0x40000 ≤ cfg.vramWords := of_decide_eq_true hcfg
  omega

/-- Settles O11. -/
theorem pairCountIsTheLoopCount : Obligations.PairCountIsTheLoopCount :=
  fun _ _ _ => lt_pairCount_iff.symm

theorem pairCount_eq_div (heblnk hsblnk : Nat) : pairCount heblnk hsblnk = (hsblnk - heblnk + 1) / 2 := by
  unfold pairCount
  split <;> omega

/-- The words of a row are numbered by the row address and the column modulo their counts (R65). -/
theorem wordIndex_mod (rowaddr coladdr k : Nat) :
    wordIndex (rowBase (rowaddr % 1024)) (coladdr % 256 + k) = wordIndex (rowBase rowaddr) (coladdr + k) := by
  simp only [wordIndex, rowBase_eq, column_eq_mod, Nat.mod_mod, Nat.mod_add_mod]

/-! ### The operation -/

/-- Under `line` RASTER_LINE is its first step and then all its others. -/
theorem execOn_rasterOf_of_line {s : State} (h : s.LineReady) (dev : PaletteDevice) (p : RasterParams) :
    execOn dev (rasterOf p) s = .next (runLine dev (pairCount p.heblnk p.hsblnk + 1) (startLine p s)) := by
  obtain ⟨hf, hl, hg⟩ := h
  exact (whenRunning_of_none hf).trans (by simp only [hl, hg])

/-- Under `pair` RASTER_LINE is its first step. -/
theorem execOn_rasterOf_of_pair {s : State} (hf : s.fault = none) (hl : s.line = none) (hg : s.cfg.granularity = .pair)
    (dev : PaletteDevice) (p : RasterParams) : execOn dev (rasterOf p) s = .next (startLine p s) :=
  (whenRunning_of_none hf).trans (by simp only [hl, hg])

theorem execOn_rasterOf_of_line_some {s : State} {q : LineProgress} (hf : s.fault = none) (hq : s.line = some q)
    (dev : PaletteDevice) (p : RasterParams) : execOn dev (rasterOf p) s = .refused .lineInProgress :=
  (whenRunning_of_none hf).trans (by simp only [hq])

theorem startLine_of_lt {p : RasterParams} {s : State} (h : p.scanline < s.cfg.screenLines) :
    startLine p s =
      s.setLine (some { params := p, base := rowBase p.rowaddr, cursor := p.coladdr, x := p.heblnk }) :=
  if_neg (Nat.not_le.mpr h)

theorem startLine_of_le {p : RasterParams} {s : State} (h : s.cfg.screenLines ≤ p.scanline) :
    startLine p s = s.raise (.scanlineOutOfRange p.scanline) :=
  if_pos h

/-- A scanline with no buffer faults before anything is drawn, under either granularity (R63). -/
theorem exec_rasterOf_of_noBuffer {p : RasterParams} {s : State} (hf : s.fault = none) (hl : s.line = none)
    (hn : s.cfg.screenLines ≤ p.scanline) :
    exec (rasterOf p) s = .next (s.raise (.scanlineOutOfRange p.scanline)) := by
  rw [exec_eq_execOn]
  cases hg : s.cfg.granularity with
  | line =>
    rw [execOn_rasterOf_of_line ⟨hf, hl, hg⟩, startLine_of_le hn, runLine_none (s := s.raise _) hl]
  | pair => rw [execOn_rasterOf_of_pair hf hl hg, startLine_of_le hn]

/-- Settles O24: the scanline has a buffer, so the first step only holds the line. -/
theorem pairGranularityStartsTheLine : Obligations.PairGranularityStartsTheLine := by
  intro p s hf hl hg hn
  rw [exec_eq_execOn, execOn_rasterOf_of_pair hf hl hg, startLine_of_lt hn]
  rfl

/-- Settles O26: no operation but RASTER_LINE looks at the line partly done. -/
theorem otherOperationsLeaveTheLine : Obligations.OtherOperationsLeaveTheLine := by
  intro q s hf hq
  refine ⟨fun p => ?_, fun i hi => ?_⟩
  · rw [exec_eq_execOn, execOn_rasterOf_of_line_some hf hq]
  · have performed (t : State) (hline : t.line = s.line) :
        ∃ t', whenRunning s (.next t) = .next t' ∧ t'.line = some q :=
      ⟨t, whenRunning_of_none hf, hline.trans hq⟩
    cases i with
    | palRd offset => exact performed (palReadOn Config.palette offset s) rfl
    | palWr offset data => exact performed (palWriteOn Config.palette offset data s) rfl
    | rasterLine scanline rowaddr coladdr heblnk hsblnk =>
      exact absurd rfl (hi ⟨scanline, rowaddr, coladdr, heblnk, hsblnk⟩)
    | irqAck level => exact performed (s.emit (.irqAck level)) rfl
    | vramRd index => exact performed _ (whenBacked_keeps State.line rfl rfl)
    | vramWr index value be => exact performed _ (whenBacked_keeps State.line rfl rfl)

/-! ### The steps of a line partly done -/

section
variable {dev : PaletteDevice} {q : LineProgress} {s : State}

theorem advanceLine_of_lt (hq : s.line = some q) (hx : q.x < q.params.hsblnk) : advanceLine dev s = pairStep dev q s := by
  simp only [advanceLine, hq, if_pos hx]

theorem advanceLine_of_le (hq : s.line = some q) (hx : q.params.hsblnk ≤ q.x) : advanceLine dev s = finishLine q s := by
  simp only [advanceLine, hq, if_neg (Nat.not_lt.mpr hx)]

/-- The word is checked before the pixels (R57). -/
theorem pairStep_of_unbacked (hv : s.cfg.vramWords ≤ wordIndex q.base q.cursor) :
    pairStep dev q s = abandonLine (.vramOutOfRange (wordIndex q.base q.cursor)) s :=
  if_pos hv

theorem pairStep_of_first_outside (hv : wordIndex q.base q.cursor < s.cfg.vramWords) (hx : s.cfg.lineWidth ≤ q.x) :
    pairStep dev q s = abandonLine (.lineBufferOverflow q.params.scanline q.x) s :=
  (if_neg (Nat.not_le.mpr hv)).trans (if_pos hx)

/-- The first pixel is drawn although the second has no place (R57, R62). -/
theorem pairStep_of_second_outside (hv : wordIndex q.base q.cursor < s.cfg.vramWords) (hx : q.x + 1 = s.cfg.lineWidth) :
    pairStep dev q s =
      abandonLine (.lineBufferOverflow q.params.scanline (q.x + 1))
        (s.setFrame (Frame.write s.frame q.params.scanline q.x
          (dev.palPens s.pal (penFirst (Memory.readWord s.vram (wordIndex q.base q.cursor)))))) :=
  (if_neg (Nat.not_le.mpr hv)).trans ((if_neg (by omega)).trans (if_pos hx.ge))

theorem pairStep_of_fits (hv : wordIndex q.base q.cursor < s.cfg.vramWords) (hx : q.x + 1 < s.cfg.lineWidth) :
    pairStep dev q s =
      (s.setFrame
          (Frame.write
            (Frame.write s.frame q.params.scanline q.x
              (dev.palPens s.pal (penFirst (Memory.readWord s.vram (wordIndex q.base q.cursor)))))
            q.params.scanline (q.x + 1)
            (dev.palPens s.pal (penSecond (Memory.readWord s.vram (wordIndex q.base q.cursor)))))).setLine
        (some { q with cursor := q.cursor + 1, x := q.x + 2 }) :=
  (if_neg (Nat.not_le.mpr hv)).trans ((if_neg (by omega)).trans (if_neg (by omega)))

end

/-- A driver that lets the line partly done go on takes that move off the schedule (R66). -/
theorem step_of_advance {s : State} {q : LineProgress} {rest : List DriverMove} (hf : s.fault = none)
    (hs : s.schedule = .advance :: rest) (hq : s.line = some q) :
    step s = .next (advanceLine Config.palette (s.setSchedule rest)) := by
  simp only [step, driverStep, whenRunning_of_none hf, hs, advanceMove, State.setSchedule_line, hq]

/-- Settles O25: an equation of the pair step, or of the final step, for each clause. -/
theorem advanceTakesOnePair : Obligations.AdvanceTakesOnePair := by
  intro q rest s hf hs hq
  have hq' : (s.setSchedule rest).line = some q := hq
  rw [step_of_advance hf hs hq]
  refine ⟨fun hx => ?_, fun hx hv => ?_, fun hx hv hw => ?_, fun hx hv hw => ?_, fun hx hv hw => ?_⟩
  · rw [advanceLine_of_le hq' hx]
    rfl
  · rw [advanceLine_of_lt hq' hx, pairStep_of_unbacked (s := s.setSchedule rest) hv]
    rfl
  · rw [advanceLine_of_lt hq' hx, pairStep_of_first_outside (s := s.setSchedule rest) hv hw]
    rfl
  · rw [advanceLine_of_lt hq' hx, pairStep_of_second_outside (s := s.setSchedule rest) hv hw]
    exact ⟨_, rfl, fun m x => Frame.read_write _ _ _ _ _ _⟩
  · rw [advanceLine_of_lt hq' hx, pairStep_of_fits (s := s.setSchedule rest) hv hw]
    refine ⟨_, rfl, fun m x => ?_⟩
    by_cases hfirst : m = q.params.scanline ∧ x = q.x <;> simp [Frame.read_write, hfirst]

end Sys2Proof.Machine
end

section
/-! A whole RASTER_LINE in closed form. How many pixels it draws and the fault it ends with, if any, follow from the
configuration and the operands alone (LineEnds), and every RASTER_LINE ends in one of these ways; the pixels are drawn one
after another from heblnk on (drawPixels). The output lines are given as data, not only by what is read from them as in
runLine_pairs, because R31, R65 and R66 compare whole states. -/

namespace Sys2Proof.Machine

/-! ### The pixels drawn -/

/-- The output lines after a RASTER_LINE has drawn its first d pixels (R57, R58). -/
def drawPixels (dev : PaletteDevice) (p : RasterParams) (s : State) : Nat → Frame
  | 0 => s.frame
  | d + 1 =>
    Frame.write (drawPixels dev p s d) p.scanline (p.heblnk + d) (dev.palPens s.pal (penAt p s.vram (p.heblnk + d)))

theorem read_drawPixels (dev : PaletteDevice) (p : RasterParams) (s : State) (d m x : Nat) :
    Frame.read (drawPixels dev p s d) m x =
      if m = p.scanline ∧ p.heblnk ≤ x ∧ x < p.heblnk + d then some (dev.palPens s.pal (penAt p s.vram x))
      else Frame.read s.frame m x := by
  induction d with
  | zero => exact (if_neg (by omega)).symm
  | succ d ih =>
    rw [drawPixels, Frame.read_write, ih]
    by_cases hlast : m = p.scanline ∧ x = p.heblnk + d
    · obtain ⟨rfl, rfl⟩ := hlast
      rw [if_pos ⟨rfl, rfl⟩, if_pos (by omega)]
    · rw [if_neg hlast]
      exact if_congr (by omega) rfl rfl

/-- The pixels drawn depend on the parameters and the state only through the scanline, the first position, the lines before
and the colours. -/
theorem drawPixels_congr {dev : PaletteDevice} {p p' : RasterParams} {s s' : State} {d : Nat}
    (hn : p'.scanline = p.scanline) (hx : p'.heblnk = p.heblnk) (hf : s'.frame = s.frame)
    (hc : ∀ x, dev.palPens s'.pal (penAt p' s'.vram x) = dev.palPens s.pal (penAt p s.vram x)) :
    drawPixels dev p' s' d = drawPixels dev p s d := by
  induction d with
  | zero => exact hf
  | succ d ih => rw [drawPixels, drawPixels, ih, hc, hn, hx]

theorem penAt_even (p : RasterParams) (vram : Memory) (k : Nat) :
    penAt p vram (p.heblnk + 2 * k) =
      penFirst (Memory.readWord vram (wordIndex (rowBase p.rowaddr) (p.coladdr + k))) := by
  simp [penAt, linePen]

theorem penAt_odd (p : RasterParams) (vram : Memory) (k : Nat) :
    penAt p vram (p.heblnk + 2 * k + 1) =
      penSecond (Memory.readWord vram (wordIndex (rowBase p.rowaddr) (p.coladdr + k))) := by
  have offset : p.heblnk + 2 * k + 1 - p.heblnk = 2 * k + 1 := by omega
  have pair : (2 * k + 1) / 2 = k := by omega
  simp [penAt, linePen, offset, pair]

/-! ### The line at its k-th pair -/

/-- The line of a RASTER_LINE that stands at its k-th pair (R55, R56). -/
def LineProgress.atPair (p : RasterParams) (k : Nat) : LineProgress :=
  { params := p, base := rowBase p.rowaddr, cursor := p.coladdr + k, x := p.heblnk + 2 * k }

/-- The state at the k-th pair of a RASTER_LINE, with the pairs before it drawn. -/
def State.atPair (dev : PaletteDevice) (p : RasterParams) (s : State) (k : Nat) : State :=
  (s.setFrame (drawPixels dev p s (2 * k))).setLine (some (LineProgress.atPair p k))

section
variable {dev : PaletteDevice} {p : RasterParams} {s : State} {k : Nat}

theorem startLine_eq_atPair (hn : p.scanline < s.cfg.screenLines) : startLine p s = s.atPair dev p 0 :=
  startLine_of_lt hn

theorem advanceLine_atPair (hk : k < pairCount p.heblnk p.hsblnk) :
    advanceLine dev (s.atPair dev p k) = pairStep dev (LineProgress.atPair p k) (s.atPair dev p k) :=
  advanceLine_of_lt rfl (lt_pairCount_iff.mp hk)

/-- A pair that faults on nothing brings the line to the next. -/
theorem advanceLine_atPair_of_fits (hk : k < pairCount p.heblnk p.hsblnk) (h : pairFits s.cfg p k) :
    advanceLine dev (s.atPair dev p k) = s.atPair dev p (k + 1) := by
  obtain ⟨hv, hw⟩ := h
  rw [advanceLine_atPair hk, pairStep_of_fits hv hw]
  simp only [State.atPair, LineProgress.atPair, State.setLine_frame, State.setFrame_frame, State.setLine_pal,
    State.setFrame_pal, State.setLine_vram, State.setFrame_vram, ← penAt_even, ← penAt_odd]
  rfl

theorem runLine_atPair (hk : k ≤ pairCount p.heblnk p.hsblnk) (h : ∀ j < k, pairFits s.cfg p j) :
    runLine dev k (s.atPair dev p 0) = s.atPair dev p k := by
  induction k with
  | zero => rfl
  | succ k ih =>
    rw [runLine_add, ih (Nat.le_of_succ_le hk) fun j hj => h j (Nat.lt_succ_of_lt hj)]
    exact advanceLine_atPair_of_fits hk (h k (Nat.lt_succ_self k))

/-- Once a line has ended at its k-th pair, the steps left over change nothing (log entry 18). -/
theorem runLine_startLine_of_ends {t : State} (hn : p.scanline < s.cfg.screenLines) (hk : k ≤ pairCount p.heblnk p.hsblnk)
    (h : ∀ j < k, pairFits s.cfg p j) (ht : advanceLine dev (s.atPair dev p k) = t) (hl : t.line = none) :
    runLine dev (pairCount p.heblnk p.hsblnk + 1) (startLine p s) = t := by
  have steps : pairCount p.heblnk p.hsblnk + 1 = k + (pairCount p.heblnk p.hsblnk - k + 1) := by omega
  rw [startLine_eq_atPair hn, steps, runLine_add, runLine_atPair hk h, runLine, ht, runLine_none hl]

/-- Where the pairs before the k-th are inside the buffer, the line is too when it comes to the k-th. -/
theorem atPair_le_lineWidth {cfg : Config} (h : ∀ j < k, pairFits cfg p j) :
    k = 0 ∨ p.heblnk + 2 * k ≤ cfg.lineWidth := by
  cases k with
  | zero => exact .inl rfl
  | succ j =>
    obtain ⟨-, hw⟩ := h j (Nat.lt_succ_self j)
    exact .inr (by omega)

end

/-! ### How a line ends -/

/-- RASTER_LINE p ends with so many pixels drawn and with this fault, if any (R53, R57, R63, R74). -/
inductive LineEnds (cfg : Config) (p : RasterParams) : Nat → Option Fault → Prop
  /-- The scanline has no buffer (R63). -/
  | noBuffer (hn : cfg.screenLines ≤ p.scanline) : LineEnds cfg p 0 (some (.scanlineOutOfRange p.scanline))
  /-- No pair faults (R53). -/
  | complete (hn : p.scanline < cfg.screenLines) (h : ∀ k < pairCount p.heblnk p.hsblnk, pairFits cfg p k) :
    LineEnds cfg p (2 * pairCount p.heblnk p.hsblnk) none
  /-- Pair k is the first to fault, on its word (R57). -/
  | unbacked (k : Nat) (hn : p.scanline < cfg.screenLines) (hk : k < pairCount p.heblnk p.hsblnk)
      (h : ∀ j < k, pairFits cfg p j) (hv : cfg.vramWords ≤ wordIndex (rowBase p.rowaddr) (p.coladdr + k)) :
    LineEnds cfg p (2 * k) (some (.vramOutOfRange (wordIndex (rowBase p.rowaddr) (p.coladdr + k))))
  /-- Pair k is the first to fault, on a pixel: the line is drawn to the end of the buffer (R62). -/
  | overflow (k : Nat) (hn : p.scanline < cfg.screenLines) (hk : k < pairCount p.heblnk p.hsblnk)
      (h : ∀ j < k, pairFits cfg p j) (hv : wordIndex (rowBase p.rowaddr) (p.coladdr + k) < cfg.vramWords)
      (hw : cfg.lineWidth ≤ p.heblnk + 2 * k + 1) :
    LineEnds cfg p (cfg.lineWidth - p.heblnk) (some (.lineBufferOverflow p.scanline (max p.heblnk cfg.lineWidth)))

/-- Every RASTER_LINE ends in one of these ways: either no pair faults, or there is a first one that does. -/
theorem lineEnds_total (cfg : Config) (p : RasterParams) : ∃ d f, LineEnds cfg p d f := by
  classical
  by_cases hn : p.scanline < cfg.screenLines
  · by_cases hall : ∃ k, k < pairCount p.heblnk p.hsblnk ∧ ¬ pairFits cfg p k
    · obtain ⟨hk, hfault⟩ := Nat.find_spec hall
      have before : ∀ j < Nat.find hall, pairFits cfg p j := fun j hj =>
        not_not.mp fun hnot => Nat.find_min hall hj ⟨Nat.lt_trans hj hk, hnot⟩
      by_cases hv : wordIndex (rowBase p.rowaddr) (p.coladdr + Nat.find hall) < cfg.vramWords
      · exact ⟨_, _, .overflow _ hn hk before hv (Nat.not_lt.mp fun hw => hfault ⟨hv, hw⟩)⟩
      · exact ⟨_, _, .unbacked _ hn hk before (Nat.not_lt.mp hv)⟩
    · exact ⟨_, _, .complete hn fun k hk => not_not.mp fun hnot => hall ⟨k, hk, hnot⟩⟩
  · exact ⟨_, _, .noBuffer (Nat.not_lt.mp hn)⟩

/-- The state a whole RASTER_LINE leaves: d pixels drawn, and its event recorded unless it faulted (R53, R73). -/
def lineResult (dev : PaletteDevice) (p : RasterParams) (s : State) (d : Nat) (f : Option Fault) : State :=
  { s with
    frame := drawPixels dev p s d
    events := match f with
      | none => s.events ++ [.rasterLine p]
      | some _ => s.events
    fault := f }

/-- A line that a fault ends at its k-th pair leaves what was drawn (R73, log entry 11). -/
theorem abandonLine_eq_lineResult {dev : PaletteDevice} {p : RasterParams} {s : State} (hl : s.line = none)
    (l : Option LineProgress) (d : Nat) (f : Fault) :
    abandonLine f ((s.setFrame (drawPixels dev p s d)).setLine l) = lineResult dev p s d (some f) := by
  simp [abandonLine, lineResult, State.setFrame, State.setLine, State.raise, hl]

/-- What a pair that passes the end of the buffer leaves (R62): its first position is the first outside the buffer, or its
second is. -/
theorem advanceLine_atPair_of_overflow {dev : PaletteDevice} {p : RasterParams} {s : State} {k : Nat} (hl : s.line = none)
    (hk : k < pairCount p.heblnk p.hsblnk) (h : ∀ j < k, pairFits s.cfg p j)
    (hv : wordIndex (rowBase p.rowaddr) (p.coladdr + k) < s.cfg.vramWords) (hw : s.cfg.lineWidth ≤ p.heblnk + 2 * k + 1) :
    advanceLine dev (s.atPair dev p k) =
      lineResult dev p s (s.cfg.lineWidth - p.heblnk)
        (some (.lineBufferOverflow p.scanline (max p.heblnk s.cfg.lineWidth))) := by
  have inside := atPair_le_lineWidth h
  rw [advanceLine_atPair hk]
  by_cases hfirst : s.cfg.lineWidth ≤ p.heblnk + 2 * k
  · have count : s.cfg.lineWidth - p.heblnk = 2 * k := by omega
    have position : max p.heblnk s.cfg.lineWidth = p.heblnk + 2 * k := by omega
    rw [pairStep_of_first_outside hv hfirst, count, position]
    exact abandonLine_eq_lineResult hl _ _ _
  · have count : s.cfg.lineWidth - p.heblnk = 2 * k + 1 := by omega
    have position : max p.heblnk s.cfg.lineWidth = p.heblnk + 2 * k + 1 := by omega
    rw [pairStep_of_second_outside hv (Nat.le_antisymm (Nat.lt_of_not_le hfirst) hw), count, position,
      ← abandonLine_eq_lineResult hl (some (LineProgress.atPair p k)), drawPixels, penAt_even]
    rfl

/-- A whole RASTER_LINE in closed form. -/
theorem runLine_startLine_of_lineEnds {dev : PaletteDevice} {p : RasterParams} {s : State} {d : Nat} {f : Option Fault}
    (hf : s.fault = none) (hl : s.line = none) (h : LineEnds s.cfg p d f) :
    runLine dev (pairCount p.heblnk p.hsblnk + 1) (startLine p s) = lineResult dev p s d f := by
  cases h with
  | noBuffer hn =>
    rw [startLine_of_le hn, runLine_none (s := s.raise _) hl]
    rfl
  | complete hn h =>
    refine runLine_startLine_of_ends hn le_rfl h ?_ hl
    rw [advanceLine_of_le rfl (Nat.not_lt.mp (mt lt_pairCount_iff.mpr (Nat.lt_irrefl _)))]
    simp [finishLine, lineResult, State.atPair, LineProgress.atPair, State.setFrame, State.setLine, State.emit, hf, hl]
  | unbacked k hn hk h hv =>
    refine runLine_startLine_of_ends hn hk.le h ?_ hl
    rw [advanceLine_atPair hk, pairStep_of_unbacked hv]
    exact abandonLine_eq_lineResult hl _ _ _
  | overflow k hn hk h hv hw =>
    exact runLine_startLine_of_ends hn hk.le h (advanceLine_atPair_of_overflow hl hk h hv hw) hl

/-- RASTER_LINE under `line` in closed form. -/
theorem exec_rasterOf_of_lineEnds {p : RasterParams} {s : State} {d : Nat} {f : Option Fault} (hs : s.LineReady)
    (h : LineEnds s.cfg p d f) : exec (rasterOf p) s = .next (lineResult Config.palette p s d f) := by
  have ⟨hf, hl, _⟩ := hs
  rw [exec_eq_execOn, execOn_rasterOf_of_line hs, runLine_startLine_of_lineEnds hf hl h]

/-! ### Lines that end in the same way -/

/-- Two RASTER_LINEs that come to the same words and positions, each with or each without a buffer. -/
structure SameCourse (cfg cfg' : Config) (p p' : RasterParams) : Prop where
  vramWords : cfg'.vramWords = cfg.vramWords
  lineWidth : cfg'.lineWidth = cfg.lineWidth
  heblnk : p'.heblnk = p.heblnk
  hsblnk : p'.hsblnk = p.hsblnk
  word : ∀ k, wordIndex (rowBase p'.rowaddr) (p'.coladdr + k) = wordIndex (rowBase p.rowaddr) (p.coladdr + k)
  buffer : p'.scanline < cfg'.screenLines ↔ p.scanline < cfg.screenLines

theorem SameCourse.pairFits_iff {cfg cfg' : Config} {p p' : RasterParams} (h : SameCourse cfg cfg' p p') (k : Nat) :
    pairFits cfg' p' k ↔ pairFits cfg p k := by
  unfold pairFits
  rw [h.word, h.vramWords, h.lineWidth, h.heblnk]

/-- They draw as many pixels, and fault alike but for the scanline their faults name. -/
theorem SameCourse.lineEnds {cfg cfg' : Config} {p p' : RasterParams} (h : SameCourse cfg cfg' p p') {d : Nat}
    {f : Option Fault} (he : LineEnds cfg p d f) :
    ∃ f', LineEnds cfg' p' d f' ∧ (f = none ↔ f' = none) ∧ (p'.scanline = p.scanline → f' = f) := by
  cases he with
  | noBuffer hn =>
    exact ⟨_, .noBuffer (Nat.not_lt.mp (mt h.buffer.mp (Nat.not_lt.mpr hn))), by simp, fun e => by rw [e]⟩
  | complete hn hfit =>
    refine ⟨none, ?_, Iff.rfl, fun _ => rfl⟩
    rw [← h.heblnk, ← h.hsblnk] at hfit ⊢
    exact .complete (h.buffer.mpr hn) fun k hk => (h.pairFits_iff k).mpr (hfit k hk)
  | unbacked k hn hk hfit hv =>
    rw [← h.heblnk, ← h.hsblnk] at hk
    rw [← h.vramWords, ← h.word] at hv
    rw [← h.word]
    exact ⟨_, .unbacked k (h.buffer.mpr hn) hk (fun j hj => (h.pairFits_iff j).mpr (hfit j hj)) hv, by simp, fun _ => rfl⟩
  | overflow k hn hk hfit hv hw =>
    rw [← h.heblnk, ← h.hsblnk] at hk
    rw [← h.vramWords, ← h.word] at hv
    rw [← h.lineWidth, ← h.heblnk] at hw ⊢
    exact ⟨_, .overflow k (h.buffer.mpr hn) hk (fun j hj => (h.pairFits_iff j).mpr (hfit j hj)) hv hw, by simp,
      fun e => by rw [e]⟩

end Sys2Proof.Machine
end

section
/-! The statements of a whole RASTER_LINE (R53 to R67), each from the closed form. -/

namespace Sys2Proof.Machine

/-! ### What a line draws -/

/-- Settles O12: a line none of whose pairs faults is complete. -/
theorem rasterLineDrawsItsPairs : Obligations.RasterLineDrawsItsPairs := by
  intro p s hs hn hfit
  refine ⟨_, ?_, read_drawPixels Config.palette p s _⟩
  rw [exec_rasterOf_of_lineEnds hs (.complete hn hfit), lineResult, hs.1]

/-- Settles O13: no pair of an even span that ends inside the buffer passes its end, so the line is complete (O12). -/
theorem evenSpanWritesExactlyTheSpan : Obligations.EvenSpanWritesExactlyTheSpan := by
  intro p s hs hn hle heven hw hv
  have count : pairCount p.heblnk p.hsblnk = (p.hsblnk - p.heblnk) / 2 := by
    rw [pairCount_eq_div]
    omega
  have span : p.heblnk + 2 * pairCount p.heblnk p.hsblnk = p.hsblnk := by omega
  obtain ⟨f, hx, hread⟩ := rasterLineDrawsItsPairs p s hs hn fun k hk => ⟨hv k (count ▸ hk), by omega⟩
  rw [span] at hread
  refine ⟨count, _, hx, hs.1, fun x hlo hhi => ?_, fun x hout => ?_, fun m x hm => ?_⟩
  · exact (hread _ _).trans (if_pos ⟨rfl, hlo, hhi⟩)
  · exact (hread _ _).trans (if_neg (by omega))
  · exact (hread _ _).trans (if_neg fun c => hm c.1)

/-- A line whose pairs pass the end of the buffer, its words backed as far as it gets, ends at the pair that passes it. -/
theorem lineEnds_of_overflow {cfg : Config} {p : RasterParams} (hn : p.scanline < cfg.screenLines)
    (hspan : p.heblnk < p.hsblnk) (hw : cfg.lineWidth < p.heblnk + 2 * pairCount p.heblnk p.hsblnk)
    (hv : wordsBacked cfg p) :
    LineEnds cfg p (cfg.lineWidth - p.heblnk)
      (some (.lineBufferOverflow p.scanline (max p.heblnk cfg.lineWidth))) := by
  set k := (cfg.lineWidth - p.heblnk) / 2 with hkdef
  have hpos : 0 < pairCount p.heblnk p.hsblnk := lt_pairCount_iff.mpr hspan
  have hk : k < pairCount p.heblnk p.hsblnk := by omega
  have inside : ∀ j < k, p.heblnk + 2 * j + 1 < cfg.lineWidth := fun j hj => by omega
  have fits : ∀ j < k, pairFits cfg p j := fun j hj =>
    ⟨hv j (Nat.lt_trans hj hk) fun i hi => inside i (Nat.lt_trans hi hj), inside j hj⟩
  exact .overflow k hn hk fits (hv k hk inside) (by omega)

/-- Settles O16. -/
theorem overflowFaultKeepsDrawnPixels : Obligations.OverflowFaultKeepsDrawnPixels := by
  intro p s hs hn hspan hw hv
  refine ⟨_, exec_rasterOf_of_lineEnds hs (lineEnds_of_overflow hn hspan hw hv), fun m x => ?_⟩
  rw [read_drawPixels]
  exact if_congr (by omega) rfl rfl

/-- Settles O17. -/
theorem unbackedWordFaultsBeforeItsPixels : Obligations.UnbackedWordFaultsBeforeItsPixels := by
  intro p k s hs hn hk hfit hv
  exact ⟨_, exec_rasterOf_of_lineEnds hs (.unbacked k hn hk hfit hv), read_drawPixels Config.palette p s _⟩

/-- Settles O15: the last pair ends at position hsblnk, inside the buffer (O12) or past it (O16). -/
theorem oddSpanWritesThroughItsEnd : Obligations.OddSpanWritesThroughItsEnd := by
  intro p s hs hn hspan hodd hv
  have count : p.hsblnk - p.heblnk + 1 = 2 * pairCount p.heblnk p.hsblnk := by
    rw [pairCount_eq_div]
    omega
  refine ⟨count, ?_⟩
  rcases Nat.lt_or_ge p.hsblnk s.cfg.lineWidth with hw | hw
  · have inside : ∀ k < pairCount p.heblnk p.hsblnk, p.heblnk + 2 * k + 1 < s.cfg.lineWidth := fun k hk => by omega
    obtain ⟨f, hx, hread⟩ := rasterLineDrawsItsPairs p s hs hn fun k hk =>
      ⟨hv k hk fun j hj => inside j (Nat.lt_trans hj hk), inside k hk⟩
    refine ⟨_, hx, fun _ => ⟨hs.1, fun x hlo hhi => ?_, fun x hout => ?_⟩, fun h => absurd hw (Nat.not_lt.mpr h)⟩
    · exact (hread _ _).trans (if_pos ⟨rfl, hlo, by omega⟩)
    · exact (hread _ _).trans (if_neg (by omega))
  · obtain ⟨f, hx, -⟩ := overflowFaultKeepsDrawnPixels p s hs hn hspan (by omega) hv
    exact ⟨_, hx, fun h => absurd h (Nat.not_lt.mpr hw), fun _ => rfl⟩

/-- Settles O14: an empty span has no pair, so that under `line` its line is complete with nothing drawn. -/
theorem emptySpanDrawsNothing : Obligations.EmptySpanDrawsNothing := by
  intro p s hf hl hempty
  refine ⟨exec_rasterOf_of_noBuffer hf hl, fun hn hg => ?_, fun hn hg => ⟨_, rfl, ?_, ?_⟩⟩
  · have noPair : pairCount p.heblnk p.hsblnk = 0 := if_neg (Nat.not_lt.mpr hempty)
    have hends : LineEnds s.cfg p (2 * pairCount p.heblnk p.hsblnk) none := .complete hn (by simp [noPair])
    rw [exec_rasterOf_of_lineEnds ⟨hf, hl, hg⟩ hends, noPair, lineResult, hf]
    rfl
  · exact pairGranularityStartsTheLine p s hf hl hg hn
  · rw [advanceLine_of_le rfl hempty]
    simp only [finishLine, State.setLine, State.emit, hl]

/-- Settles O22: a line that records no fault is complete, so each of its pixels has the colour of its index. -/
theorem sameIndexSameColour : Obligations.SameIndexSameColour := by
  intro p s t x y hs ht hfault hx hx' hy hy' hsame
  obtain ⟨d, f, hends⟩ := lineEnds_total s.cfg p
  obtain rfl := Host.Outcome.next.inj ((exec_rasterOf_of_lineEnds hs hends).symm.trans ht)
  obtain rfl : f = none := hfault
  cases hends
  have whole : p.hsblnk ≤ p.heblnk + 2 * pairCount p.heblnk p.hsblnk := by
    rw [pairCount_eq_div]
    omega
  refine ⟨Config.palette.palPens s.pal (penAt p s.vram x), ?_, ?_⟩
  · exact (read_drawPixels _ _ _ _ _ _).trans (if_pos ⟨rfl, hx, by omega⟩)
  · rw [hsame]
    exact (read_drawPixels _ _ _ _ _ _).trans (if_pos ⟨rfl, hy, by omega⟩)

/-! ### What a line depends on -/

/-- Settles O18: on another scanline with a buffer the line takes the same course, and so draws as many pixels. -/
theorem scanlineOnlySelectsTheBuffer : Obligations.ScanlineOnlySelectsTheBuffer := by
  refine ⟨fun p s => exec_rasterOf_of_noBuffer, fun p n s hs hp hn hsame => ?_⟩
  have course : SameCourse s.cfg s.cfg p { p with scanline := n } := ⟨rfl, rfl, rfl, rfl, fun _ => rfl, iff_of_true hn hp⟩
  obtain ⟨d, f, hends⟩ := lineEnds_total s.cfg p
  obtain ⟨f', hends', hfault, -⟩ := course.lineEnds hends
  refine ⟨_, _, exec_rasterOf_of_lineEnds hs hends, exec_rasterOf_of_lineEnds hs hends', hfault, fun x => ?_⟩
  simp only [lineResult, read_drawPixels, true_and, hsame]
  rfl

/-- The operands with their row and column addresses in range (R65). -/
def RasterParams.wrapped (p : RasterParams) : RasterParams :=
  { p with rowaddr := p.rowaddr % 1024, coladdr := p.coladdr % 256 }

/-- Settles O20: the wrapped addresses name the same words (wordIndex_mod). -/
theorem rowAndColumnAddressesWrap : Obligations.RowAndColumnAddressesWrap := by
  refine ⟨fun p s hs => ?_, fun rowaddr cursor hlast => ?_⟩
  · have words (k : Nat) := wordIndex_mod p.rowaddr p.coladdr k
    have course : SameCourse s.cfg s.cfg p (RasterParams.wrapped p) := ⟨rfl, rfl, rfl, rfl, words, Iff.rfl⟩
    obtain ⟨d, f, hends⟩ := lineEnds_total s.cfg p
    obtain ⟨f', hends', -, hsame⟩ := course.lineEnds hends
    obtain rfl := hsame rfl
    have drawn : drawPixels Config.palette (RasterParams.wrapped p) s d = drawPixels Config.palette p s d :=
      drawPixels_congr rfl rfl rfl fun x => by simp only [RasterParams.wrapped, penAt, linePen, words]
    exact ⟨_, _, exec_rasterOf_of_lineEnds hs hends, exec_rasterOf_of_lineEnds hs hends', drawn.symm, rfl⟩
  · obtain ⟨here, -⟩ := wordIndexStaysInItsRow rowaddr cursor
    obtain ⟨after, -⟩ := wordIndexStaysInItsRow rowaddr (cursor + 1)
    exact ⟨by omega, by omega⟩

/-- Settles O21: how a line ends does not depend on VRAM, and the colours come from words of its row (R43). -/
theorem rasterLineReadsOnlyItsRow : Obligations.RasterLineReadsOnlyItsRow := by
  intro p m s hs hrow
  have pens (x : Nat) : penAt p m x = penAt p s.vram x := by
    obtain ⟨-, -, inRow, -⟩ := wordIndexStaysInItsRow p.rowaddr (p.coladdr + (x - p.heblnk) / 2)
    simp only [penAt, linePen, hrow _ inRow]
  obtain ⟨d, f, hends⟩ := lineEnds_total s.cfg p
  refine ⟨_, exec_rasterOf_of_lineEnds hs hends, ?_⟩
  have drawn : drawPixels Config.palette p { s with vram := m } d = drawPixels Config.palette p s d :=
    drawPixels_congr rfl rfl rfl fun x => congrArg _ (pens x)
  rw [exec_rasterOf_of_lineEnds (s := { s with vram := m }) hs hends]
  simp only [lineResult, drawn]

/-! ### What a line leaves unchanged -/

/-- Of the device a step of a line uses only the colour table (R64). -/
theorem advanceLine_congr {dev dev' : PaletteDevice} (h : dev.palPens = dev'.palPens) :
    advanceLine dev = advanceLine dev' := by
  funext s
  simp only [advanceLine, pairStep, h]

theorem runLine_congr {dev dev' : PaletteDevice} (h : dev.palPens = dev'.palPens) (n : Nat) :
    runLine dev n = runLine dev' n := by
  induction n with
  | zero => rfl
  | succ n ih =>
    funext s
    rw [runLine, runLine, ih, advanceLine_congr h]

theorem execOn_rasterOf_congr {dev dev' : PaletteDevice} (h : dev.palPens = dev'.palPens) (p : RasterParams) (s : State) :
    execOn dev (rasterOf p) s = execOn dev' (rasterOf p) s := by
  simp only [rasterOf, execOn, execRasterLineOn, runLine_congr h]

theorem rasterOf_injective : Function.Injective rasterOf := by
  rintro ⟨⟩ ⟨⟩ ⟨⟩
  rfl

/-- The events a RASTER_LINE records and the line it leaves partly done (R53, R66, R73). -/
theorem execOn_rasterOf_events_line {dev : PaletteDevice} {p : RasterParams} {s t : State}
    (hx : execOn dev (rasterOf p) s = .next t) :
    (t.events = s.events ∨ (t.fault = none ∧ t.events = s.events ++ [.rasterLine p])) ∧
      (s.cfg.granularity = .line → t.line = none) := by
  obtain ⟨hf, hl, ⟨-, ht⟩ | ⟨hg, rfl⟩⟩ := execOn_cases hx
  · obtain ⟨d, f, hends⟩ := lineEnds_total s.cfg p
    obtain rfl : t = lineResult dev p s d f := ht.trans (runLine_startLine_of_lineEnds hf hl hends)
    refine ⟨?_, fun _ => hl⟩
    cases f with
    | none => exact .inr ⟨rfl, rfl⟩
    | some f => exact .inl rfl
  · obtain ⟨-, -, -, -, -, hevents⟩ := startLine_keeps p s
    exact ⟨.inl hevents, fun hline => by simp [hg] at hline⟩

/-- The fields that no RASTER_LINE changes (R64). -/
theorem execOn_rasterOf_keeps {dev : PaletteDevice} {p : RasterParams} {s t : State}
    (hx : execOn dev (rasterOf p) s = .next t) :
    t.cfg = s.cfg ∧ t.vram = s.vram ∧ t.pal = s.pal ∧ t.schedule = s.schedule := by
  obtain ⟨hcfg, hvram, hpal, -, hsch, -⟩ := startLine_keeps p s
  obtain ⟨-, -, ⟨-, rfl⟩ | ⟨-, rfl⟩⟩ := execOn_cases hx
  · obtain ⟨hcfg', hvram', hpal', hsch'⟩ :=
      runLine_keeps_fields dev (pairCount p.heblnk p.hsblnk + 1) (startLine p s)
    exact ⟨hcfg'.trans hcfg, hvram'.trans hvram, hpal'.trans hpal, hsch'.trans hsch⟩
  · exact ⟨hcfg, hvram, hpal, hsch⟩

/-- A step of the line records only the line's own event (R53). -/
theorem advanceLine_events_of_some (dev : PaletteDevice) {q : LineProgress} {s : State} (hq : s.line = some q) :
    (advanceLine dev s).events = s.events ∨ (advanceLine dev s).events = s.events ++ [.rasterLine q.params] := by
  rcases Nat.lt_or_ge q.x q.params.hsblnk with hx | hx
  · rw [advanceLine_of_lt hq hx]
    obtain ⟨-, -, -, -, hevents⟩ := pairStep_keeps dev q s
    exact .inl hevents
  · rw [advanceLine_of_le hq hx]
    exact .inr rfl

/-- Settles O19: the pixels are those of execOn_read and advanceLine_read. -/
theorem rasterLineFrame : Obligations.RasterLineFrame := by
  refine ⟨fun p s t hx => ?_, fun q s hq => ⟨_, rfl, ?_⟩, fun dev dev' p s h => ?_⟩
  · rw [exec_eq_execOn] at hx
    obtain ⟨hcfg, hvram, hpal, hsch⟩ := execOn_rasterOf_keeps hx
    refine ⟨hvram, hpal, hcfg, hsch, fun m x hout => ?_, execOn_rasterOf_events_line hx⟩
    rcases execOn_read hx m x with same | ⟨p', hp, -, hm, hlo, hhi⟩
    · exact same
    · obtain rfl := rasterOf_injective hp
      omega
  · obtain ⟨hcfg, hvram, hpal, hsch⟩ := advanceLine_keeps Config.palette s
    refine ⟨hvram, hpal, hcfg, hsch, fun m x hout => ?_, advanceLine_events_of_some _ hq⟩
    rcases advanceLine_read Config.palette s m x with same | ⟨q', hq', hm, -, hpair⟩
    · exact same
    · obtain rfl := Option.some.inj (hq.symm.trans hq')
      omega
  · exact ⟨execOn_rasterOf_congr h p s, congrFun (advanceLine_congr h) s⟩

end Sys2Proof.Machine
end

section
/-! A `line` run as a `pair` run with nothing interleaved (R66): the steps a RASTER_LINE takes at once under `line` are the
machine's own steps while the driver is idle. -/

namespace Sys2Proof.Machine

/-- The state under granularity `pair`. -/
def State.asPair (s : State) : State :=
  { s with cfg := { s.cfg with granularity := .pair } }

/-- The steps of a line do not depend on the granularity. -/
theorem runLine_startLine_asPair {p : RasterParams} {s : State} (hf : s.fault = none) (hl : s.line = none)
    (dev : PaletteDevice) :
    runLine dev (pairCount p.heblnk p.hsblnk + 1) (startLine p s.asPair) =
      (runLine dev (pairCount p.heblnk p.hsblnk + 1) (startLine p s)).asPair := by
  have course : SameCourse s.cfg s.asPair.cfg p p := ⟨rfl, rfl, rfl, rfl, fun _ => rfl, Iff.rfl⟩
  obtain ⟨d, f, hends⟩ := lineEnds_total s.cfg p
  obtain ⟨f', hends', -, hsame⟩ := course.lineEnds hends
  obtain rfl := hsame rfl
  have drawn : drawPixels dev p s.asPair d = drawPixels dev p s d := drawPixels_congr rfl rfl rfl fun _ => rfl
  rw [runLine_startLine_of_lineEnds hf hl hends, runLine_startLine_of_lineEnds (s := s.asPair) hf hl hends']
  simp only [lineResult, drawn]
  rfl

/-- An idle driver lets the line partly done take its next step (log entry 7). -/
theorem step_of_idle {s : State} {q : LineProgress} (hf : s.fault = none) (hs : s.schedule = []) (hq : s.line = some q) :
    step s = .next (advanceLine Config.palette s) := by
  simp only [step, driverStep, whenRunning_of_none hf, hs, idleMove, hq]

theorem core_run_of_idle {s : State} {q : LineProgress} (hf : s.fault = none) (hs : s.schedule = [])
    (hq : s.line = some q) (m : Nat) :
    Host.Core.run core (m + 1) s = Host.Core.run core m (advanceLine Config.palette s) :=
  core_run_of_next (step_of_idle hf hs hq)

/-- An idle driver's run carries a line partly done to where all its steps bring it: over its n pairs left and its final
step, or to the fault that ends it before. -/
theorem run_eq_runLine (n : Nat) {s : State} {q : LineProgress} (hf : s.fault = none) (hs : s.schedule = [])
    (hq : s.line = some q) (hn : pairCount q.x q.params.hsblnk = n) :
    ∃ m ≤ n + 1, Host.Core.run core m s = .next (runLine Config.palette (n + 1) s) ∧
      ((runLine Config.palette (n + 1) s).fault = none → m = n + 1) := by
  induction n generalizing s q with
  | zero => exact ⟨1, le_rfl, core_run_of_idle hf hs hq 0, fun _ => rfl⟩
  | succ n ih =>
    have hx : q.x < q.params.hsblnk := (lt_pairCount_iff (k := 0)).mp (by rw [hn]; exact Nat.succ_pos n)
    have left : pairCount (q.x + 2) q.params.hsblnk = n := Nat.succ.inj ((pairCount_eq_succ hx).symm.trans hn)
    rw [runLine]
    rcases pairStep_line Config.palette q s with ⟨hl, f, hfault⟩ | ⟨hl, hfault⟩ <;>
      rw [← advanceLine_of_lt hq hx] at hl hfault
    · rw [runLine_none hl]
      exact ⟨1, by omega, core_run_of_idle hf hs hq 0, fun hnone => by simp [hfault] at hnone⟩
    · obtain ⟨-, -, -, hsch⟩ := advanceLine_keeps Config.palette s
      obtain ⟨m, hm, hrun, hcount⟩ := ih (hfault.trans hf) (hsch.trans hs) hl left
      exact ⟨m + 1, by omega, (core_run_of_idle hf hs hq m).trans hrun, fun hnone => by rw [hcount hnone]⟩

/-- Settles O27: the first step is the RASTER_LINE issued, and the idle driver's steps are the line's own. -/
theorem lineRunIsAnUninterruptedPairRun : Obligations.LineRunIsAnUninterruptedPairRun := by
  intro p s t hs hsch hx
  rw [exec_eq_execOn, execOn_rasterOf_of_line hs] at hx
  obtain ⟨hf, hl, -⟩ := hs
  obtain rfl := Host.Outcome.next.inj hx
  have issued : step (issueNext (encode (rasterOf p)) s.asPair) = .next (startLine p s.asPair) := by
    rw [stepPerformsTheIssuedOperation (encode (rasterOf p)) (rasterOf p) s.schedule (issueNext _ s.asPair) hf rfl
      (decode_encode _), exec_eq_execOn]
    exact execOn_rasterOf_of_pair (s := s.asPair) hf hl rfl _ p
  have first (m : Nat) := core_run_of_next (k := m) issued
  have whole := runLine_startLine_asPair (p := p) hf hl Config.palette
  rcases Nat.lt_or_ge p.scanline s.cfg.screenLines with hn | hn
  · have start := startLine_of_lt (s := s.asPair) hn
    obtain ⟨m, hm, hrun, hcount⟩ := run_eq_runLine (pairCount p.heblnk p.hsblnk) (s := startLine p s.asPair)
      (by rw [start]; exact hf) (by rw [start]; exact hsch) (by rw [start]; rfl) rfl
    rw [whole] at hrun hcount
    exact ⟨m + 1, by omega, (first m).trans hrun, fun hnone => by rw [hcount hnone]⟩
  · have stop := startLine_of_le (s := s.asPair) hn
    rw [runLine_none (by rw [stop]; exact hl)] at whole
    refine ⟨1, by omega, (first 0).trans (congrArg Host.Outcome.next whole), fun hnone => ?_⟩
    have faulted : (startLine p s.asPair).fault = none := whole ▸ hnone
    simp [stop] at faulted

end Sys2Proof.Machine
end

section
/-! IRQ_ACK (R68) and the driver's accesses to VRAM (R69, R70): the next state of each below the extent and past it, the bytes
a byte-enabled write leaves, and what a VRAM_RD finds of an earlier VRAM_WR. -/

namespace Sys2Proof.Machine

/-! ### The range check and the operations, an equation per case -/

theorem whenBacked_of_lt {index : Nat} {s : State} (h : index < s.cfg.vramWords) (k : State → State) :
    whenBacked index k s = k s :=
  if_neg (Nat.not_le.mpr h)

theorem whenBacked_of_le {index : Nat} {s : State} (h : s.cfg.vramWords ≤ index) (k : State → State) :
    whenBacked index k s = s.raise (.vramOutOfRange index) :=
  if_pos h

theorem exec_irqAck {s : State} (hf : s.fault = none) (level : BitVec 1) :
    exec (.irqAck level) s = .next (s.emit (.irqAck level)) :=
  whenRunning_of_none hf

theorem exec_vramRd {s : State} (hf : s.fault = none) (index : Nat) :
    exec (.vramRd index) s = .next (whenBacked index (vramRead index) s) :=
  whenRunning_of_none hf

theorem exec_vramWr {s : State} (hf : s.fault = none) (index : Nat) (value : VramWord) (be : BitVec 2) :
    exec (.vramWr index value be) s = .next (whenBacked index (vramWrite index value be) s) :=
  whenRunning_of_none hf

/-- Settles O30. -/
theorem irqAckOnlyRecords : Obligations.IrqAckOnlyRecords :=
  fun level _ hf => exec_irqAck hf level

/-! ### VRAM_RD -/

/-- VRAM_RD returns the word it reads (R69). -/
@[simp] theorem vramRead_lastReturned (index : Nat) (s : State) :
    (vramRead index s).lastReturned = some (.vramWord (Memory.readWord s.vram index)) :=
  State.lastReturned_emit _ _

/-- Settles O31, on either side of the range check. -/
theorem vramRdReturnsTheWord : Obligations.VramRdReturnsTheWord := by
  intro index s hf
  rw [exec_vramRd hf]
  refine ⟨fun hlt => ?_, fun hle => ?_⟩
  · rw [whenBacked_of_lt hlt]
    exact ⟨_, rfl, rfl, vramRead_lastReturned index s⟩
  · rw [whenBacked_of_le hle]
    rfl

/-! ### The bytes of a word -/

/-- A byte lane of a word read (R25, R26). -/
theorem Memory.extractLsb'_readWord (m : Memory) (i : Nat) {l : Nat} (hl : l < 2) :
    (Memory.readWord m i).extractLsb' (8 * l) 8 = Memory.readLane m (laneKey i l) := by
  refine BitVec.eq_of_getLsbD_eq fun n hn => ?_
  rw [BitVec.getLsbD_extractLsb', Memory.getLsbD_readWord]
  obtain rfl | rfl : l = 0 ∨ l = 1 := by omega
  · simp [hn]
  · simp [hn]

/-- A byte lane of a word written (R25, R26). -/
theorem Memory.readLane_writeWord_lane (m : Memory) (i : Nat) (w : VramWord) {l : Nat} (hl : l < 2) :
    Memory.readLane (Memory.writeWord m i w) (laneKey i l) = w.extractLsb' (8 * l) 8 := by
  rw [← Memory.extractLsb'_readWord _ i hl, Memory.readWord_writeWord_same]

/-- A byte whose enable is clear keeps its old bits (R70). -/
theorem extractLsb'_mergeWord_of_disabled (old value : VramWord) {be : BitVec 2} {l : Nat} (hl : l < 2)
    (hbe : be.getLsbD l = false) :
    (mergeWord old value be).extractLsb' (8 * l) 8 = old.extractLsb' (8 * l) 8 := by
  refine BitVec.eq_of_getLsbD_eq fun n hn => ?_
  have lane : (8 * l + n) / 8 = l := by omega
  simp only [BitVec.getLsbD_extractLsb', mergeWord_getLsbD old value be (show 8 * l + n < 16 by omega), lane, hbe,
    Bool.false_eq_true, if_false]

/-- With both bytes enabled the whole word is replaced (R70). -/
@[simp] theorem mergeWord_all_enabled (old value : VramWord) : mergeWord old value 3#2 = value := by
  have mask : byteMask 3#2 = BitVec.allOnes 16 := rfl
  simp only [mergeWord, mask, BitVec.not_allOnes, BitVec.and_zero, BitVec.zero_or, BitVec.and_allOnes]

/-! ### VRAM_WR -/

theorem vramWrite_vram (index : Nat) (value : VramWord) (be : BitVec 2) (s : State) :
    (vramWrite index value be s).vram =
      Memory.writeWord s.vram index (mergeWord (Memory.readWord s.vram index) value be) := rfl

/-- A byte-enabled write of a word leaves every lane that is not an enabled one of that word (R70). -/
theorem Memory.readLane_writeWord_of_disabled (m : Memory) (index : Nat) (value : VramWord) {be : BitVec 2} {k : Nat}
    (h : ∀ l < 2, k = laneKey index l → be.getLsbD l = false) :
    Memory.readLane (Memory.writeWord m index (mergeWord (Memory.readWord m index) value be)) k =
      Memory.readLane m k := by
  by_cases hk : ∃ l < 2, k = laneKey index l
  · obtain ⟨l, hl, rfl⟩ := hk
    rw [Memory.readLane_writeWord_lane m index _ hl, extractLsb'_mergeWord_of_disabled _ _ hl (h l hl rfl),
      Memory.extractLsb'_readWord m index hl]
  · have other (l : Nat) (hl : l < 2) : k ≠ laneKey index l := fun e => hk ⟨l, hl, e⟩
    rw [Memory.readLane_writeWord, if_neg (other 0 (by decide)), if_neg (other 1 (by decide))]

/-- Settles O32: the word left is the merge of the old word with the value, in its own place. -/
theorem vramWrMergesEnabledBytes : Obligations.VramWrMergesEnabledBytes := by
  intro index value be s hf
  rw [exec_vramWr hf]
  refine ⟨fun hlt => ?_, fun hle => ?_⟩
  · rw [whenBacked_of_lt hlt]
    refine ⟨_, rfl, fun mask hmask => ?_, fun k h0 h1 => ?_, fun j hj => Memory.readWord_writeWord_other hj _ _⟩
    · subst hmask
      exact Memory.readWord_writeWord_same _ _ _
    · refine Memory.readLane_writeWord_of_disabled _ _ _ fun l hl hk => Bool.eq_false_iff.mpr fun hbe => ?_
      obtain rfl | rfl : l = 0 ∨ l = 1 := by omega
      · exact h0 ⟨hk, hbe⟩
      · exact h1 ⟨hk, hbe⟩
  · rw [whenBacked_of_le hle]
    rfl

/-- Settles O33: the operation in between changes neither VRAM, as it is no VRAM_WR (R37), nor the extent (R9). -/
theorem vramRdReturnsTheLastWrite : Obligations.VramRdReturnsTheLastWrite := by
  intro index value i s a b hf hlt hi hwrite hx hfb
  rw [exec_vramWr hf, whenBacked_of_lt hlt] at hwrite
  obtain rfl := Host.Outcome.next.inj hwrite
  rw [exec_eq_execOn] at hx
  obtain ⟨hcfg, -⟩ := execOn_adds hx
  have backed : index < b.cfg.vramWords := hcfg ▸ hlt
  have kept : b.vram = (vramWrite index value 3#2 s).vram := by
    rcases execOn_vram hx with same | ⟨j, v, be, hwr, -⟩
    · exact same
    · exact absurd hwr (hi j v be)
  refine ⟨vramRead index b, by rw [exec_vramRd hfb, whenBacked_of_lt backed], ?_⟩
  rw [vramRead_lastReturned, kept, vramWrite_vram, Memory.readWord_writeWord_same, mergeWord_all_enabled]

end Sys2Proof.Machine
end

section
/-! A recorded fault (R73): nothing is performed after it, and the step that records it leaves VRAM, the device and the history
as they were, since every check comes before the access and the event it guards (R74). -/

namespace Sys2Proof.Machine

theorem stepOn_of_fault {dev : PaletteDevice} {s : State} {f : Fault} (h : s.fault = some f) : stepOn dev s = .fault f :=
  whenRunning_of_some h

/-- A step of a line that records a fault is a pair step, which records no event (R57, R73). -/
theorem advanceLine_events_of_faults {dev : PaletteDevice} {s : State} {f : Fault} (hf : s.fault = none)
    (h : (advanceLine dev s).fault = some f) : (advanceLine dev s).events = s.events := by
  rcases advanceLine_cases dev s with ⟨-, e⟩ | ⟨q, -, -, e⟩ | ⟨q, -, -, e⟩
  · rw [e]
  · obtain ⟨-, -, -, -, hevents⟩ := pairStep_keeps dev q s
    rw [e, hevents]
  · simp [e, finishLine, hf] at h

theorem advanceLine_keeps_of_faults {dev : PaletteDevice} {s : State} {f : Fault} (hf : s.fault = none)
    (h : (advanceLine dev s).fault = some f) :
    (advanceLine dev s).vram = s.vram ∧ (advanceLine dev s).pal = s.pal ∧ (advanceLine dev s).events = s.events := by
  obtain ⟨-, hvram, hpal, -⟩ := advanceLine_keeps dev s
  exact ⟨hvram, hpal, advanceLine_events_of_faults hf h⟩

/-- Of a range check and an access that raises no fault, only the check can have raised one (R69, R70). -/
theorem whenBacked_of_faults {index : Nat} {k : State → State} {s : State} {f : Fault} (hk : (k s).fault = none)
    (h : (whenBacked index k s).fault = some f) : whenBacked index k s = s.raise (.vramOutOfRange index) := by
  rcases whenBacked_cases index k s with ⟨-, e⟩ | ⟨-, e⟩
  · exact e
  · simp [e, hk] at h

/-- An operation that records a fault is a RASTER_LINE or an access to VRAM (R72), and changes neither VRAM nor the device
nor the history (R73). -/
theorem execOn_keeps_of_faults {dev : PaletteDevice} {i : Instr} {s t : State} {f : Fault}
    (hx : execOn dev i s = .next t) (h : t.fault = some f) :
    t.vram = s.vram ∧ t.pal = s.pal ∧ t.events = s.events := by
  obtain ⟨hf, ht⟩ := execOn_cases hx
  cases i with
  | palRd offset =>
    cases ht
    simp [palReadOn, hf] at h
  | palWr offset data =>
    cases ht
    simp [hf] at h
  | rasterLine scanline rowaddr coladdr heblnk hsblnk =>
    have hline : execOn dev (rasterOf ⟨scanline, rowaddr, coladdr, heblnk, hsblnk⟩) s = .next t := hx
    obtain ⟨-, hvram, hpal, -⟩ := execOn_rasterOf_keeps hline
    obtain ⟨same | ⟨hnone, -⟩, -⟩ := execOn_rasterOf_events_line hline
    · exact ⟨hvram, hpal, same⟩
    · simp [hnone] at h
  | irqAck level =>
    cases ht
    simp [hf] at h
  | vramRd index =>
    cases ht
    rw [whenBacked_of_faults hf h]
    exact ⟨rfl, rfl, rfl⟩
  | vramWr index value be =>
    cases ht
    rw [whenBacked_of_faults hf h]
    exact ⟨rfl, rfl, rfl⟩

/-- Settles O38: a step that answers a next state started without a fault, so that the fault it leaves is one its own move
recorded. -/
theorem faultEndsTheRun : Obligations.FaultEndsTheRun := by
  refine ⟨fun s f hf => ⟨stepOn_of_fault hf, fun i => ?_⟩, fun s t hs => (stepOn_cases hs).1, fun s t f hs h => ?_⟩
  · rw [exec_eq_execOn, execOn_of_fault hf]
  · obtain ⟨hf, idle | advance | issue | reserved⟩ := stepOn_cases (step_eq_stepOn s ▸ hs)
    · obtain ⟨-, -, rfl⟩ := idle
      exact advanceLine_keeps_of_faults hf h
    · obtain ⟨rest, -, -, rfl⟩ := advance
      exact advanceLine_keeps_of_faults (s := s.setSchedule rest) hf h
    · obtain ⟨r, rest, i, -, -, hx⟩ := issue
      exact execOn_keeps_of_faults (s := s.setSchedule rest) hx h
    · obtain ⟨r, rest, k, -, -, rfl⟩ := reserved
      exact ⟨rfl, rfl, rfl⟩

end Sys2Proof.Machine
end

section
/-! What a step answers, and the hazards between operations (R35, R71, R73, R81, R84, R85). -/

namespace Sys2Proof.Machine

/-! ### What an operation and a step can answer -/

/-- While no fault is recorded every operation is performed, but for a RASTER_LINE while another is partly done (R66, R71). -/
theorem execOn_answers {s : State} (hf : s.fault = none) (dev : PaletteDevice) (i : Instr) :
    (∃ t, execOn dev i s = .next t) ∨
      ((∃ p, i = rasterOf p) ∧ (∃ q, s.line = some q) ∧ execOn dev i s = .refused .lineInProgress) := by
  cases i with
  | rasterLine scanline rowaddr coladdr heblnk hsblnk =>
    obtain ⟨p, hp⟩ : ∃ p, Instr.rasterLine scanline rowaddr coladdr heblnk hsblnk = rasterOf p :=
      ⟨⟨scanline, rowaddr, coladdr, heblnk, hsblnk⟩, rfl⟩
    rw [hp]
    cases hl : s.line with
    | some q => exact .inr ⟨⟨p, rfl⟩, ⟨q, rfl⟩, execOn_rasterOf_of_line_some hf hl dev p⟩
    | none =>
      cases hg : s.cfg.granularity with
      | line => exact .inl ⟨_, execOn_rasterOf_of_line ⟨hf, hl, hg⟩ dev p⟩
      | pair => exact .inl ⟨_, execOn_rasterOf_of_pair hf hl hg dev p⟩
  | _ => exact .inl ⟨_, whenRunning_of_none hf⟩

/-- An operation answers a fault only where it was recorded before (R73). -/
theorem fault_of_execOn_eq_fault {dev : PaletteDevice} {i : Instr} {s : State} {f : Fault}
    (h : execOn dev i s = .fault f) : s.fault = some f := by
  cases hf : s.fault with
  | some g => exact congrArg some (Host.Outcome.fault.inj ((execOn_of_fault hf).symm.trans h))
  | none => rcases execOn_answers hf dev i with ⟨t, e⟩ | ⟨-, -, e⟩ <;> simp [e] at h

/-- A record issued answers a fault only where it was recorded before: the fault of a reserved kind is recorded in a next
state (R44, R73). -/
theorem fault_of_issueRecord_eq_fault {dev : PaletteDevice} {r : OpRecord} {s : State} {f : Fault}
    (h : issueRecord (execOn dev) r s = .fault f) : s.fault = some f := by
  cases hd : decode r with
  | ok i => exact fault_of_execOn_eq_fault ((issueRecord_of_decode_ok hd s).symm.trans h)
  | error e => cases e <;> simp [issueRecord, hd] at h

/-- A step answers a fault only where it was recorded before (R73). -/
theorem fault_of_stepOn_eq_fault {dev : PaletteDevice} {s : State} {f : Fault} (h : stepOn dev s = .fault f) :
    s.fault = some f := by
  cases hf : s.fault with
  | some g => exact congrArg some (Host.Outcome.fault.inj ((stepOn_of_fault hf).symm.trans h))
  | none =>
    cases hs : s.schedule with
    | nil => cases hl : s.line <;> simp [stepOn, driverStep, idleMove, hf, hs, hl] at h
    | cons m rest =>
      cases m with
      | advance => cases hl : s.line <;> simp [stepOn, driverStep, advanceMove, hf, hs, hl] at h
      | issue r =>
        have issued : issueRecord (execOn dev) r (s.setSchedule rest) = .fault f := (driverStep_of_issue hf hs).symm.trans h
        exact hf.symm.trans (fault_of_issueRecord_eq_fault (s := s.setSchedule rest) issued)

theorem step_of_endOfRun {s : State} (hf : s.fault = none) (hs : s.schedule = []) (hl : s.line = none) :
    step s = .refused .endOfRun := by
  simp only [step, driverStep, whenRunning_of_none hf, hs, idleMove, hl]

/-- Settles O41: the idle driver's move, without a line and with one. -/
theorem runEndsWhenNothingIsIssued : Obligations.RunEndsWhenNothingIsIssued :=
  fun _ hf hs => ⟨step_of_endOfRun hf hs, fun _ => step_of_idle hf hs⟩

/-! ### A write before a line -/

/-- RASTER_LINE under `line` in closed form, on any device. -/
theorem execOn_rasterOf_of_lineEnds {dev : PaletteDevice} {p : RasterParams} {s : State} {d : Nat} {f : Option Fault}
    (hs : s.LineReady) (h : LineEnds s.cfg p d f) : execOn dev (rasterOf p) s = .next (lineResult dev p s d f) := by
  have ⟨hf, hl, _⟩ := hs
  rw [execOn_rasterOf_of_line hs, runLine_startLine_of_lineEnds hf hl h]

theorem le_heblnk_add_pairs (heblnk hsblnk : Nat) : hsblnk ≤ heblnk + 2 * pairCount heblnk hsblnk :=
  Nat.not_lt.mp fun h => Nat.lt_irrefl _ (lt_pairCount_iff.mpr h)

/-- Settles O28: the line is complete in the state PAL_WR leaves, and PAL_WR changes no pixel. -/
theorem palWrTakesEffectBetweenLines : Obligations.PalWrTakesEffectBetweenLines := by
  intro dev o d p s hs hn hfit
  have ⟨hf, _⟩ := hs
  have before : (palWriteOn dev o d s).LineReady := hs
  have line := execOn_rasterOf_of_lineEnds (dev := dev) before (.complete hn hfit)
  refine ⟨_, _, _, execOn_palWr hf dev o d, line, execOn_palWr rfl dev o d, rfl, fun x hlo hhi => ?_⟩
  have inside := Nat.lt_of_lt_of_le hhi (le_heblnk_add_pairs p.heblnk p.hsblnk)
  exact (read_drawPixels _ _ _ _ _ _).trans (if_pos ⟨rfl, hlo, inside⟩)

/-- Settles O29: the line is complete in the state VRAM_WR leaves (O12), and its k-th pair is the two bytes of the word
written. -/
theorem vramWrIsSeenByTheNextLine : Obligations.VramWrIsSeenByTheNextLine := by
  intro p k v s hs hn hfit hk
  have ⟨hf, _⟩ := hs
  obtain ⟨hbacked, -⟩ := hfit k hk
  set index := wordIndex (rowBase p.rowaddr) (p.coladdr + k) with hindex
  have written : Memory.readWord (vramWrite index v 3#2 s).vram index = v := by
    rw [vramWrite_vram, Memory.readWord_writeWord_same, mergeWord_all_enabled]
  have ready : (vramWrite index v 3#2 s).LineReady := hs
  obtain ⟨f, line, hread⟩ := rasterLineDrawsItsPairs p (vramWrite index v 3#2 s) ready hn hfit
  refine ⟨_, _, by rw [exec_vramWr hf, whenBacked_of_lt hbacked], line, ?_, ?_⟩
  · rw [hread, if_pos (by omega), penAt_even, ← hindex, written]
    rfl
  · rw [hread, if_pos (by omega), penAt_odd, ← hindex, written]
    rfl

end Sys2Proof.Machine
end

section
/-! A driver that keeps its duties (R83). The duties of a RASTER_LINE keep each of its pairs from faulting, so that its steps
keep State.MidStepDutiful, what State.Dutiful says of the line partly done without its atomicity; each operation and each
step of the machine then keeps State.Dutiful. -/

namespace Sys2Proof.Machine

/-! ### The duties of a RASTER_LINE -/

section
variable {cfg : Config} {p : RasterParams}

/-- Duty 5 (R83). -/
theorem scanline_lt_of_rasterDuties (h : cfg.rasterDuties p = true) : p.scanline < cfg.screenLines := by
  simp only [Config.rasterDuties, Config.scanlineExists, Bool.and_eq_true, decide_eq_true_eq] at h
  tauto

/-- Duties 3 and 4 keep both pixels of each pair inside the buffer (R57, R83). -/
theorem pixels_lt_of_rasterDuties (h : cfg.rasterDuties p = true) {k : Nat}
    (hk : k < pairCount p.heblnk p.hsblnk) : p.heblnk + 2 * k + 1 < cfg.lineWidth := by
  simp only [Config.rasterDuties, RasterParams.spanOrdered, RasterParams.spanEven, Config.spanFits, Bool.and_eq_true,
    decide_eq_true_eq] at h
  have before := lt_pairCount_iff.mp hk
  omega

/-- Either form of duty 7 backs the word of each pair (R32, R83). -/
theorem wordIndex_lt_of_rasterDuties (h : cfg.rasterDuties p = true) {k : Nat}
    (hk : k < pairCount p.heblnk p.hsblnk) : wordIndex (rowBase p.rowaddr) (p.coladdr + k) < cfg.vramWords := by
  obtain ⟨-, duty⟩ := Bool.and_eq_true_iff.mp h
  rcases Bool.or_eq_true_iff.mp duty with covers | words
  · exact Nat.lt_of_lt_of_le (wordIndex_rowBase_lt _ _) (of_decide_eq_true covers)
  · exact of_decide_eq_true (List.all_eq_true.mp words k (List.mem_range.mpr hk))

/-- No pair of a dutiful RASTER_LINE faults (R57, R83). -/
theorem pairFits_of_rasterDuties (h : cfg.rasterDuties p = true) {k : Nat} (hk : k < pairCount p.heblnk p.hsblnk) :
    pairFits cfg p k :=
  ⟨wordIndex_lt_of_rasterDuties h hk, pixels_lt_of_rasterDuties h hk⟩

end

/-! ### The steps of a dutiful line -/

/-- What State.Dutiful says of the line partly done, without its atomicity: it also holds between two pairs within one
step. -/
structure State.MidStepDutiful (s : State) : Prop where
  inv : s.MidStepInv
  noFault : s.fault = none
  lineDuties : ∀ q, s.line = some q → s.cfg.rasterDuties q.params = true

theorem State.Dutiful.toMidStepDutiful {s : State} (h : s.Dutiful) : s.MidStepDutiful where
  inv := h.inv.toMidStepInv
  noFault := h.noFault
  lineDuties := h.lineDuties

/-- It says nothing of the rest of the state but the invariant. -/
theorem State.MidStepDutiful.congr {s t : State} (h : s.MidStepDutiful) (hinv : t.MidStepInv) (hcfg : t.cfg = s.cfg)
    (hf : t.fault = s.fault) (hl : t.line = s.line) : t.MidStepDutiful where
  inv := hinv
  noFault := hf.trans h.noFault
  lineDuties := by rw [hcfg, hl]; exact h.lineDuties

/-- The line stands at a pair of its own, which faults on nothing. -/
theorem State.MidStepDutiful.pairStep_fault {s : State} (h : s.MidStepDutiful) (dev : PaletteDevice) {q : LineProgress}
    (hq : s.line = some q) (hx : q.x < q.params.hsblnk) : (pairStep dev q s).fault = none := by
  obtain ⟨-, hbase, k, -, hcursor, hpos⟩ := h.inv.lineInv q hq
  obtain ⟨hv, hw⟩ := pairFits_of_rasterDuties (h.lineDuties q hq) (k := k) (lt_pairCount_iff.mpr (hpos ▸ hx))
  rw [← hbase, ← hcursor] at hv
  rw [← hpos] at hw
  rw [pairStep_of_fits hv hw]
  exact h.noFault

theorem State.MidStepDutiful.startLine {s : State} (h : s.MidStepDutiful) {p : RasterParams}
    (hp : s.cfg.rasterDuties p = true) : (startLine p s).MidStepDutiful where
  inv := h.inv.startLine p
  noFault := by
    rw [startLine_of_lt (scanline_lt_of_rasterDuties hp)]
    exact h.noFault
  lineDuties q hq := by
    rw [startLine_of_lt (scanline_lt_of_rasterDuties hp)] at hq ⊢
    obtain rfl := Option.some.inj hq
    exact hp

theorem State.MidStepDutiful.advanceLine {s : State} (h : s.MidStepDutiful) (dev : PaletteDevice) :
    (advanceLine dev s).MidStepDutiful where
  inv := h.inv.advanceLine dev
  noFault := by
    rcases advanceLine_cases dev s with ⟨-, e⟩ | ⟨q, hq, hx, e⟩ | ⟨q, -, -, e⟩
    · rw [e]
      exact h.noFault
    · rw [e]
      exact h.pairStep_fault dev hq hx
    · rw [e]
      exact h.noFault
  lineDuties q' hq' := by
    obtain ⟨q, hq, -, rfl⟩ := advanceLine_line hq'
    rw [(advanceLine_keeps dev s).1]
    exact h.lineDuties q hq

theorem State.MidStepDutiful.runLine {s : State} (h : s.MidStepDutiful) (dev : PaletteDevice) (n : Nat) :
    (runLine dev n s).MidStepDutiful :=
  runLine_keeps (fun _ ht => ht.advanceLine dev) n h

/-- A dutiful RASTER_LINE faults neither at once, under `line`, nor at its first step, under `pair` (R66). -/
theorem State.MidStepDutiful.execOn_rasterOf {s t : State} (h : s.MidStepDutiful) {dev : PaletteDevice}
    {p : RasterParams} (hp : s.cfg.rasterDuties p = true) (hx : execOn dev (rasterOf p) s = .next t) :
    t.MidStepDutiful := by
  obtain ⟨-, -, ⟨-, rfl⟩ | ⟨-, rfl⟩⟩ := execOn_cases hx
  · exact (h.startLine hp).runLine dev _
  · exact h.startLine hp

/-! ### Operations and steps -/

/-- What keeps the configuration and the moves to come (R6, R9) keeps the driver dutiful if it breaks neither the invariant
nor the line's duties. -/
theorem State.Dutiful.of_midStep {s t : State} (h : s.Dutiful) (ht : t.MidStepDutiful) (hinv : t.Inv)
    (hcfg : t.cfg = s.cfg) (hsch : t.schedule = s.schedule) : t.Dutiful where
  inv := hinv
  noFault := ht.noFault
  moves := by rw [hcfg, hsch]; exact h.moves
  lineDuties := ht.lineDuties

theorem State.Dutiful.setSchedule {s : State} (h : s.Dutiful) {m : DriverMove} {rest : List DriverMove}
    (hs : s.schedule = m :: rest) : (s.setSchedule rest).Dutiful where
  inv := h.inv.setSchedule rest
  noFault := h.noFault
  moves m' hm' := h.moves m' (hs ▸ List.mem_cons_of_mem m hm')
  lineDuties := h.lineDuties

/-- Every move of the line partly done keeps the driver dutiful. -/
theorem State.Dutiful.advanceLine {s : State} (h : s.Dutiful) (dev : PaletteDevice) {q : LineProgress}
    (hq : s.line = some q) : (advanceLine dev s).Dutiful := by
  obtain ⟨hcfg, -, -, hsch⟩ := advanceLine_keeps dev s
  exact h.of_midStep (h.toMidStepDutiful.advanceLine dev) (h.inv.advanceLine dev hq) hcfg hsch

/-- A record a dutiful driver issues decodes to an operation that meets its duties (R83). -/
theorem State.Dutiful.decode_issued {s : State} (h : s.Dutiful) {r : OpRecord} {rest : List DriverMove}
    (hs : s.schedule = .issue r :: rest) : ∃ i, decode r = .ok i ∧ s.cfg.dutiesMet i = true := by
  have duty := h.moves (.issue r) (by simp [hs])
  unfold DriverMove.dutiful at duty
  cases hd : decode r with
  | ok i => exact ⟨i, rfl, by simpa [hd] using duty⟩
  | error e => simp [hd] at duty

/-- No operation touches what the driver has yet to issue (R6). -/
theorem execOn_schedule {dev : PaletteDevice} {i : Instr} {s t : State} (hx : execOn dev i s = .next t) :
    t.schedule = s.schedule := by
  obtain ⟨-, ht⟩ := execOn_cases hx
  cases i with
  | palRd offset =>
    cases ht
    rfl
  | palWr offset data =>
    cases ht
    rfl
  | rasterLine scanline rowaddr coladdr heblnk hsblnk =>
    obtain ⟨-, -, -, hsch⟩ := execOn_rasterOf_keeps (p := ⟨scanline, rowaddr, coladdr, heblnk, hsblnk⟩) hx
    exact hsch
  | irqAck level =>
    cases ht
    rfl
  | vramRd index =>
    cases ht
    exact whenBacked_keeps State.schedule rfl rfl
  | vramWr index value be =>
    cases ht
    exact whenBacked_keeps State.schedule rfl rfl

/-- Every operation that meets its duties keeps the driver dutiful, on any device: a VRAM access is backed, and what is no
RASTER_LINE leaves the line where it stood. -/
theorem execOn_keeps_dutiful {dev : PaletteDevice} {i : Instr} {s t : State} (h : s.Dutiful)
    (hi : s.cfg.dutiesMet i = true) (hx : execOn dev i s = .next t) : t.Dutiful := by
  have hinv := execOn_keeps_inv h.inv hx
  obtain ⟨hcfg, -⟩ := execOn_adds hx
  refine h.of_midStep ?_ hinv hcfg (execOn_schedule hx)
  have kept := h.toMidStepDutiful.congr hinv.toMidStepInv hcfg
  obtain ⟨-, ht⟩ := execOn_cases hx
  cases i with
  | palRd offset =>
    cases ht
    exact kept rfl rfl
  | palWr offset data =>
    cases ht
    exact kept rfl rfl
  | rasterLine scanline rowaddr coladdr heblnk hsblnk => exact h.toMidStepDutiful.execOn_rasterOf hi hx
  | irqAck level =>
    cases ht
    exact kept rfl rfl
  | vramRd index =>
    obtain rfl := ht.trans (whenBacked_of_lt (of_decide_eq_true hi) _)
    exact kept rfl rfl
  | vramWr index value be =>
    obtain rfl := ht.trans (whenBacked_of_lt (of_decide_eq_true hi) _)
    exact kept rfl rfl

/-- Every step keeps the driver dutiful, on any device. -/
theorem stepOn_keeps_dutiful {dev : PaletteDevice} {s t : State} (h : s.Dutiful) (hs : stepOn dev s = .next t) :
    t.Dutiful := by
  obtain ⟨-, idle | advance | issue | reserved⟩ := stepOn_cases hs
  · obtain ⟨-, ⟨q, hq⟩, rfl⟩ := idle
    exact h.advanceLine dev hq
  · obtain ⟨rest, hsch, ⟨q, hq⟩, rfl⟩ := advance
    exact (h.setSchedule hsch).advanceLine dev hq
  · obtain ⟨r, rest, i, hsch, hd, hx⟩ := issue
    obtain ⟨j, hj, hi⟩ := h.decode_issued hsch
    obtain rfl := Except.ok.inj (hj.symm.trans hd)
    exact execOn_keeps_dutiful (h.setSchedule hsch) hi hx
  · obtain ⟨r, rest, k, hsch, hd, -⟩ := reserved
    obtain ⟨i, hi, -⟩ := h.decode_issued hsch
    simp [hd] at hi

/-- Settles O49: a step answers a fault only where one is recorded, and a dutiful driver's state records none. -/
theorem dutifulDriverNeverFaults : Obligations.DutifulDriverNeverFaults := by
  intro s h
  rw [step_eq_stepOn]
  exact ⟨fun f hs => by simpa [h.noFault] using fault_of_stepOn_eq_fault hs, fun t => stepOn_keeps_dutiful h⟩

/-- Settles O50: the operation is performed, as a RASTER_LINE finds no other partly done, and leaves a dutiful driver's
state. -/
theorem dutifulOperationCompletes : Obligations.DutifulOperationCompletes := by
  intro r rest s h hsch hfree
  obtain ⟨i, hd, hi⟩ := h.decode_issued hsch
  have issued := h.setSchedule hsch
  rcases execOn_answers issued.noFault Config.palette i with ⟨t, hx⟩ | ⟨⟨p, rfl⟩, ⟨q, hq⟩, -⟩
  · have performed : exec i { s with schedule := rest } = .next t := (exec_eq_execOn _ _).trans hx
    have stepped : step s = .next t := (stepPerformsTheIssuedOperation r i rest s h.noFault hsch hd).trans performed
    exact ⟨i, t, hd, performed, stepped, (execOn_keeps_dutiful issued hi hx).noFault⟩
  · rcases hfree with hnone | hother
    · exact absurd (hnone.symm.trans hq) (by simp)
    · exact absurd hd (hother p)

end Sys2Proof.Machine
end
